-- ==== Sys2Proof/Word.lean ====
section
/-! DEFINITION. The word types of the block: bytes, 16-bit fields, the 64-bit command word (R15, R17, R90),
and a bus frame as a list of bytes (R21, R200). -/

namespace Sys2Proof

/-- A byte, bits 7..0 (R17). -/
abbrev Byte := BitVec 8

/-- A 16-bit operand field: the `off` and `len` of the byte-range format (R15, R94). -/
abbrev Half := BitVec 16

/-- The 64-bit command word `cw` (R90). -/
abbrev CmdWord := BitVec 64

/-- One bus frame: the bytes handed to the transport in one `send` (R21, R200). -/
abbrev Frame := List Byte

end Sys2Proof
end

