-- ==== Sys2Proof/Config.lean ====
section
/-! DEFINITION. What is fixed for an instance: the geometry of the surface (R10), the protocol sizes (R11), the
protocol parameters (R13) with the constraints a model may assume of them, and the open values of the spec that
the instance was built with, as opaque constants (R12, R13, R14). -/

namespace Sys2Proof

namespace Config

/-- `W = 128`, columns 0..127 (R10). -/
abbrev width : Nat := 128

/-- `H = 64`, rows 0..63 (R10). -/
abbrev height : Nat := 64

/-- `PAGES = 8`, pages of 8 rows each (R10). -/
abbrev pages : Nat := 8

/-- `PAGE_BYTES = W = 128` (R10). -/
abbrev pageBytes : Nat := 128

/-- `BUF_LEN = PAGES * W = 1024` (R10). -/
abbrev bufLen : Nat := 1024

/-- `MAX_PAYLOAD = 16`: payload bytes after a frame's discriminator (R11). -/
abbrev maxPayload : Nat := 16

/-- `CHUNK = 16`: surface bytes in one data frame (R11). -/
abbrev chunk : Nat := 16

/-- `CHUNKS_PER_PAGE = 8` (R11). -/
abbrev chunksPerPage : Nat := 8

/-- `FRAMES_PER_FLUSH = 2 + PAGES * (1 + CHUNKS_PER_PAGE) = 74` (R11, C11). -/
abbrev framesPerFlush : Nat := 74

/-- The default of the host parameter `MAX_INSTANCES`; no rule of the block reads it (R12, R304). -/
abbrev maxInstancesDefault : Nat := 10

/-- `SETTLE_DELAY`, whose value the source does not give (R14). INIT's wait takes it and has no effect (R331). -/
opaque settleDelay : Nat

end Config

/-- The open protocol parameters of R13, fixed when an instance is built (R42, R325). -/
structure Params where
  /-- `CTRL_CMD`: the discriminator that opens a command frame. -/
  ctrlCmd : Byte
  /-- `CTRL_DATA`: the discriminator that opens a data frame. -/
  ctrlData : Byte
  /-- `COL_START_FRAME`. -/
  colStart : Frame
  /-- `COL_END_FRAME`. -/
  colEnd : Frame
  /-- `PAGE_BASE`: the payload byte of the page-select frame of page 0. -/
  pageBase : Byte
  /-- `CHARGE_PUMP_FRAMES`, in order. -/
  chargePump : List Frame
  /-- `DISPLAY_ON_FRAME`. -/
  displayOn : Frame
  /-- `DISPLAY_OFF_FRAME`. -/
  displayOff : Frame
  deriving DecidableEq, Repr, Inhabited

/-- A frame has 1 to 17 bytes: a discriminator and 0 to 16 payload bytes (R200). -/
def frameOk (f : Frame) : Bool := 1 ≤ f.length && f.length ≤ 1 + Config.maxPayload

/-- A command frame of the parameters: a frame (R200) that begins with `CTRL_CMD` (R13, R201). -/
def Params.cmdFrameOk (p : Params) (f : Frame) : Bool := frameOk f && f.head? == some p.ctrlCmd

/-- The constraints of R13 on the parameters, "and no more". -/
def Params.wf (p : Params) : Bool :=
  p.ctrlCmd != p.ctrlData && p.pageBase ≤ 0xF8#8 && p.cmdFrameOk p.colStart && p.cmdFrameOk p.colEnd
    && p.chargePump.all p.cmdFrameOk && p.cmdFrameOk p.displayOn && p.cmdFrameOk p.displayOff

/-- A frame bent into a command frame: discriminator `CTRL_CMD`, at most 16 payload bytes. -/
def Params.fixFrame (p : Params) (f : Frame) : Frame := p.ctrlCmd :: (f.drop 1).take Config.maxPayload

/-- Arbitrary values bent into values that meet R13; values that meet it already stay as they are
(`Params.normalise_of_wf`), so a normalised free value ranges over exactly the admissible parameters. -/
def Params.normalise (p : Params) : Params where
  ctrlCmd := p.ctrlCmd
  ctrlData := if p.ctrlData = p.ctrlCmd then p.ctrlCmd + 1 else p.ctrlData
  colStart := p.fixFrame p.colStart
  colEnd := p.fixFrame p.colEnd
  pageBase := if p.pageBase ≤ 0xF8#8 then p.pageBase else 0xF8#8
  chargePump := p.chargePump.map p.fixFrame
  displayOn := p.fixFrame p.displayOn
  displayOff := p.fixFrame p.displayOff

/-- Values for the parameters that nothing constrains: the source gives none (R13, D15, I1). -/
opaque Config.freeParams : Params

/-- The parameters the instance was built with: free, but for the constraints of R13 (log 6). -/
def Config.params : Params := Config.freeParams.normalise

end Sys2Proof
end

