-- ==== Sys2Proof/Machine/State.lean ====
section
/-! DEFINITION. The state of one instance and its ports as plain data, the reasons a step can stop, and the state
after reset. The block's own state is LC, FB and the transient phase of a command (R30, R43); the ports carry what
the host and the transport supply and what the block puts out (R35 to R38). -/

namespace Sys2Proof.Machine

/-- The lifecycle state register `LC` (R32). -/
inductive Lifecycle where
  | detached
  | attaching
  | active
  | blanked
  | detaching
  deriving DecidableEq, Repr

/-- The result codes (R280). `capacityExceeded` is the host registry's; the block never returns it (R285). -/
inductive ResultCode where
  | ok
  | outOfBounds
  | transportError
  | unknownDevice
  | unsupportedMode
  | deviceInitFailed
  | capacityExceeded
  | illegalCommand
  deriving DecidableEq, Repr

/-- The shapes of response data (R96). -/
inductive RespData where
  | none
  /-- GET_PIXEL: the pixel's value. -/
  | bit (b : Bool)
  /-- RAW_WRITE: bytes written. -/
  | count (n : Nat)
  /-- RAW_READ: the bytes read. -/
  | bytes (l : List Byte)
  /-- PAGE_READ: the record and the next page index. -/
  | page (l : List Byte) (next : Nat)
  deriving DecidableEq, Repr

/-- One response (R37, R96). -/
structure Response where
  code : ResultCode
  data : RespData
  deriving DecidableEq, Repr

/-- Diagnostic events (R300). -/
inductive Diag where
  /-- FILL_RECT: requested rectangle, clipped origin and size. -/
  | clipped (x y w h cx cy cw ch : Nat)
  /-- RAW_WRITE: requested offset and length, bytes written. -/
  | truncated (off len n : Nat)
  /-- A frame answered Err: its index among the command's sends, and the frame. -/
  | txFail (i : Nat) (frame : Frame)
  deriving DecidableEq, Repr

/-- The transport's answer to one `Send` (R36). -/
inductive Answer where
  | ok
  | err
  deriving DecidableEq, Repr

/-- The surface's bytes as a canonical list of (offset, byte) pairs: offsets strictly rising and below `BUF_LEN`, no
entry 0x00; an offset not listed holds 0x00, which is what INIT creates (R31, R240; log 11). -/
abbrev Memory := List Host.Cell

/-- What a command does once its last frame has been answered. -/
inductive Ending where
  /-- The flush of FLUSH and of the mutating commands, which answer with this data (R97, R206, R220). -/
  | flush (data : RespData)
  /-- INIT's initial flush (R240). -/
  | init
  /-- SHUTDOWN's display-off frame (R250). -/
  | shutdown
  /-- BLANK's frame; the lifecycle state it leads to (R256). -/
  | blank (target : Lifecycle)
  deriving DecidableEq, Repr

/-- Where in a command a frame is sent: INIT's power-on frames, which a flush follows (R240), or a last run of frames. -/
inductive Stage where
  | powerOn
  | ending (e : Ending)
  deriving DecidableEq, Repr

/-- A command whose `Send` waits for the transport's answer (R206, R208). -/
structure Job where
  stage : Stage
  /-- The frame on the bus port, not yet answered. -/
  frame : Frame
  /-- The frames to present after it, in order. -/
  queue : List Frame
  /-- `nsent`: the `Send` calls this command has made, counting the one that waits (R206). -/
  nsent : Nat
  deriving DecidableEq, Repr

/-- What the block is in the middle of. -/
inductive Phase where
  /-- Between two commands (R33, R73). -/
  | idle
  /-- A RAW_WRITE word has been accepted; the payload bytes that have come, and the count still due (R43, R111). -/
  | payload (cw : CmdWord) (got : List Byte) (due : Nat)
  /-- A frame is on the bus port and unanswered (R208, R334). -/
  | bus (job : Job)
  deriving DecidableEq, Repr

/-- One instance with its ports (R4, R30, R35 to R38). -/
structure State where
  /-- `LC` (R32). -/
  lc : Lifecycle
  /-- `FB`: absent, or the surface (R30, R31). -/
  fb : Option Memory
  /-- The transient phase of a command (R43, R208). -/
  phase : Phase
  /-- The parameters the instance was built with; no command writes them (R13, R42). -/
  params : Params
  /-- The reset input (R320). -/
  resetIn : Bool
  /-- Command port: stream bytes the host has presented and the block has not taken (R35, R91). -/
  cmdIn : List Byte
  /-- Bus port, input: the transport's answers to the sends to come; a free input (R36; log 2). -/
  busIn : List Answer
  /-- Bus port, output: the frames presented, oldest first (R36). -/
  busOut : List Frame
  /-- Response port: the responses returned, oldest first (R37). -/
  respOut : List Response
  /-- Diagnostic port: the events emitted, oldest first (R38). -/
  diagOut : List Diag
  deriving DecidableEq, Repr

/-- The state after reset (R47, R320): Detached, no surface, no payload due, bus idle, nothing pending on any port.
The parameters are the instance's own, fixed before reset is released (R325). -/
def State.reset : State where
  lc := .detached
  fb := none
  phase := .idle
  params := Config.params
  resetIn := false
  cmdIn := []
  busIn := []
  busOut := []
  respOut := []
  diagOut := []

/-- Why the model stops. Both reasons are raised only in states that R30 and R33 exclude, so no run from reset meets
them (log 9). -/
inductive Fault where
  /-- Raised by a command that reads or writes the surface when LC is Active or Blanked and FB is absent, against R30.
  Safe: the spec gives that state no meaning. -/
  | surfaceAbsent
  /-- Raised by a command that is executed while LC is Attaching or Detaching, when another command is in progress,
  against R33 and R73. Safe: the spec gives that state no meaning. -/
  | commandInProgress
  deriving DecidableEq, Repr

/-- Why the model gives an instruction no meaning. -/
inductive Refusal where
  /-- An arm of exec whose instruction has no meaning yet. Safe: nothing is claimed of it. No arm raises it now. -/
  | notModelled (mnemonic : String)
  deriving DecidableEq, Repr

end Sys2Proof.Machine
end

