-- ==== Sys2Proof/Machine/Operands.lean ====
section
/-! DEFINITION. Operand assembly and operand checks: fields zero-extended to natural numbers (R16, R95), the bounds
of pixels, offsets and blocks (R72, R282), clipping (R170) and clamping (R140, R145), and the BLANK mode (R104). -/

namespace Sys2Proof.Machine

/-- `zext` of an 8-bit field (R16, R95). -/
abbrev zextByte (b : Byte) : Nat := b.toNat

/-- `zext` of a 16-bit field. -/
abbrev zextHalf (h : Half) : Nat := h.toNat

/-- `x < W and y < H` (R72, R130, R135). -/
def inSurface (x y : Nat) : Bool := x < Config.width && y < Config.height

/-- `off < BUF_LEN` (R140, R145). -/
def inBuffer (off : Nat) : Bool := off < Config.bufLen

/-- A `w x h` block at `(x, y)` lies inside the surface, in unbounded arithmetic (R180, R183). -/
def blockInside (x y w h : Nat) : Bool := x + w ≤ Config.width && y + h ≤ Config.height

/-- `min(len, BUF_LEN - off)` (R140, R145). -/
def clampLen (off len : Nat) : Nat := min len (Config.bufLen - off)

/-- A rectangle by its origin and size. -/
structure Rect where
  x : Nat
  y : Nat
  w : Nat
  h : Nat
  deriving DecidableEq, Repr

/-- The requested rectangle intersected with the surface: `x0 = min(x, W)`, `x1 = min(x + w, W)`, and likewise for
`y`; the sums never wrap (R170). -/
def clipRect (x y w h : Nat) : Rect where
  x := min x Config.width
  y := min y Config.height
  w := min (x + w) Config.width - min x Config.width
  h := min (y + h) Config.height - min y Config.height

/-- Some requested pixel is outside the surface: `(x1 - x0) * (y1 - y0) < w * h` (R170). -/
def isClipped (w h : Nat) (r : Rect) : Bool := r.w * r.h < w * h

/-- The `mode` operand of BLANK: 0 Unblank, 1 Normal, the others unsupported (R104, R256). -/
inductive BlankMode where
  | unblank
  | normal
  | unsupported
  deriving DecidableEq, Repr

/-- The meaning of the mode field (R256). -/
def blankMode (mode : Nat) : BlankMode :=
  if mode = 1 then .normal else if mode = 0 then .unblank else .unsupported

end Sys2Proof.Machine
end

