-- ==== Sys2Proof/Machine/Flags.lean ====
section
/-! DEFINITION. The block has no flag, condition-code register or sticky bit (R41): the outcome of a command is only
its response and its diagnostic events. This file holds the numeric values of those outcomes: the codes (R280), the
byte form of a response (R98), and the coding of LC (R32). -/

namespace Sys2Proof.Machine

/-- The value of a result code (R280). -/
def ResultCode.value : ResultCode → Byte
  | .ok => 0
  | .outOfBounds => 1
  | .transportError => 2
  | .unknownDevice => 3
  | .unsupportedMode => 4
  | .deviceInitFailed => 5
  | .capacityExceeded => 6
  | .illegalCommand => 7

/-- A number as 2 bytes, little-endian (R98). -/
def le16 (n : Nat) : List Byte := [BitVec.ofNat 8 n, BitVec.ofNat 8 (n / 256)]

/-- The byte form of response data (R98). -/
def RespData.toBytes : RespData → List Byte
  | .none => []
  | .bit b => [if b then 0x01 else 0x00]
  | .count n => le16 n
  | .bytes l => le16 l.length ++ l
  | .page l next => BitVec.ofNat 8 next :: (le16 l.length ++ l)

/-- The byte form of a response: the code, then the data (R98). -/
def Response.toBytes (r : Response) : List Byte := r.code.value :: r.data.toBytes

/-- The bytes the response port has carried. -/
def State.responseBytes (s : State) : List Byte := s.respOut.flatMap Response.toBytes

/-- The 3-bit coding of LC (R32). -/
def Lifecycle.code : Lifecycle → BitVec 3
  | .detached => 0
  | .attaching => 1
  | .active => 2
  | .blanked => 3
  | .detaching => 4

/-- The lifecycle state of a 3-bit code; 5..7 are reserved and never held (R32, I10). -/
def Lifecycle.ofCode (c : BitVec 3) : Option Lifecycle :=
  if c = 0 then some .detached
  else if c = 1 then some .attaching
  else if c = 2 then some .active
  else if c = 3 then some .blanked
  else if c = 4 then some .detaching
  else none

end Sys2Proof.Machine
end

