-- ==== Sys2Proof/Machine/Ops.lean ====
section
/-! DEFINITION. The shared operations: surface bytes, byte ranges and pixels (R18, R60 to R66), painting a block of
pixels (R170, R180), the frames of a flush (R202 to R204), sending frames and waiting for answers (R206, R208), the
end of a command (R19, R291, R292), and what each command does when its frames are answered. -/

namespace Sys2Proof.Machine

/-! ## Surface bytes -/

/-- `FB[i]` (R18). An offset that is not listed holds 0x00 (R31; log 11). -/
def Memory.read : Memory → Nat → Byte
  | [], _ => 0#8
  | (a, v) :: m, i => if i = a then v else Memory.read m i

/-- `FB[i] <- v` (R18), keeping the list canonical: 0x00 is not listed. -/
def Memory.write : Memory → Nat → Byte → Memory
  | [], i, v => if v = 0#8 then [] else [(i, v)]
  | (a, u) :: m, i, v =>
    if i < a then (if v = 0#8 then (a, u) :: m else (i, v) :: (a, u) :: m)
    else if i = a then (if v = 0#8 then m else (a, v) :: m)
    else (a, u) :: Memory.write m i v

/-- The canonical form from an offset up: listed offsets strictly rising, inside the surface (R46), none 0x00. -/
def Memory.wfFrom : Nat → Memory → Bool
  | _, [] => true
  | lo, (a, v) :: m => lo ≤ a && a < Config.bufLen && v != 0#8 && Memory.wfFrom (a + 1) m

/-- The canonical form. -/
def Memory.wf (m : Memory) : Bool := Memory.wfFrom 0 m

/-- The fresh zeroed surface, `[0x00] * BUF_LEN` (R31, R240): nothing is listed. -/
def Memory.zeroed : Memory := []

/-- `MemRead(off, n)` (R18). -/
def memRead (m : Memory) (off n : Nat) : List Byte := (List.range n).map fun j => Memory.read m (off + j)

/-- `MemWrite(off, n, bytes)` with `n` the number of bytes given, in ascending offset order (R18, R140). -/
def memWrite : Memory → Nat → List Byte → Memory
  | m, _, [] => m
  | m, off, b :: bs => memWrite (Memory.write m off b) (off + 1) bs

/-! ## Pixels -/

/-- The surface byte of pixel `(x, y)`: `(y / 8) * W + x` (R61). -/
def pixelByte (x y : Nat) : Nat := (y / 8) * Config.width + x

/-- The bit of pixel `(x, y)` in its byte: `y % 8`, of weight `2 ^ (y % 8)` (R61, R66). -/
def pixelBit (y : Nat) : Nat := y % 8

/-- `PixRead(x, y)` (R62); on is 1 is true (R64). -/
def pixRead (m : Memory) (x y : Nat) : Bool := (Memory.read m (pixelByte x y)).getLsbD (pixelBit y)

/-- `(v AND NOT (1 << k)) OR (b << k)`: one bit of a byte replaced (R63). -/
def setBit (v : Byte) (k : Nat) (b : Bool) : Byte :=
  (v &&& ~~~(1#8 <<< k)) ||| ((if b then 1#8 else 0#8) <<< k)

/-- `PixWrite(x, y, b)` (R63). -/
def pixWrite (m : Memory) (x y : Nat) (b : Bool) : Memory :=
  Memory.write m (pixelByte x y) (setBit (Memory.read m (pixelByte x y)) (pixelBit y) b)

/-- The inner loop of FILL_RECT and COPY_AREA: pixels `x0 .. x0 + n - 1` of row `y`, in ascending order, pixel
`x0 + i` getting `f i` (R170, R180). -/
def paintRow (f : Nat → Bool) (x0 y : Nat) : Nat → Memory → Memory
  | 0, m => m
  | n + 1, m => pixWrite (paintRow f x0 y n m) (x0 + n) y (f n)

/-- The outer loop: rows `y0 .. y0 + h - 1` in ascending order, pixel `(x0 + i, y0 + j)` getting `f i j`. -/
def paintBlock (f : Nat → Nat → Bool) (x0 y0 w : Nat) : Nat → Memory → Memory
  | 0, m => m
  | h + 1, m => paintRow (fun i => f i h) x0 (y0 + h) w (paintBlock f x0 y0 w h m)

/-- FILL_RECT's loops over the clipped rectangle (R170). -/
def fillRect (m : Memory) (r : Rect) (c : Bool) : Memory := paintBlock (fun _ _ => c) r.x r.y r.w r.h m

/-- COPY_AREA's snapshot `T[j][i] = PixRead(sx + i, sy + j)` (R180): read from the surface as it was before the
command, whatever has been written since. -/
def snapshot (m : Memory) (sx sy : Nat) (i j : Nat) : Bool := pixRead m (sx + i) (sy + j)

/-- COPY_AREA's write of the snapshot to the destination block (R180, R181). -/
def copyArea (m : Memory) (sx sy dx dy w h : Nat) : Memory := paintBlock (snapshot m sx sy) dx dy w h m

/-! ## Frames -/

/-- `PageSel(p) = [CTRL_CMD, PAGE_BASE + p]` (R202). -/
def pageSel (ps : Params) (p : Nat) : Frame := [ps.ctrlCmd, ps.pageBase + BitVec.ofNat 8 p]

/-- `Data(p, k) = [CTRL_DATA] ++ MemRead(p * 128 + 16 * k, 16)` (R203). -/
def dataFrame (ps : Params) (m : Memory) (p k : Nat) : Frame :=
  ps.ctrlData :: memRead m (p * Config.pageBytes + Config.chunk * k) Config.chunk

/-- `PageBlock(p) = [PageSel(p), Data(p,0), ..., Data(p,7)]` (R204). -/
def pageBlock (ps : Params) (m : Memory) (p : Nat) : List Frame :=
  pageSel ps p :: (List.range Config.chunksPerPage).map (dataFrame ps m p)

/-- `FlushFrames(FB)` (R204). -/
def flushFrames (ps : Params) (m : Memory) : List Frame :=
  [ps.colStart, ps.colEnd] ++ (List.range Config.pages).flatMap (pageBlock ps m)

/-- `CHARGE_PUMP_FRAMES ++ [DISPLAY_ON_FRAME]`, the power-on frames of INIT (R240). -/
def powerOnFrames (ps : Params) : List Frame := ps.chargePump ++ [ps.displayOn]

/-! ## One home for each field's update -/

/-- `LC <- l` (R18). -/
def State.setLc (s : State) (l : Lifecycle) : State := { s with lc := l }

/-- The surface replaced, created or released (R31). -/
def State.setFb (s : State) (fb : Option Memory) : State := { s with fb := fb }

/-- The phase of the command in progress. -/
def State.setPhase (s : State) (p : Phase) : State := { s with phase := p }

/-- The command port after bytes were taken from it. -/
def State.setCmdIn (s : State) (bytes : List Byte) : State := { s with cmdIn := bytes }

/-- Frames presented on the bus port, and the answers not yet used. -/
def State.emit (s : State) (frames : List Frame) (rest : List Answer) : State :=
  { s with busOut := s.busOut ++ frames, busIn := rest }

/-- `Diag(e)` (R19, R300). -/
def State.diag (s : State) (e : Diag) : State := { s with diagOut := s.diagOut ++ [e] }

/-! ## The end of a command -/

/-- `respond(code, data)`: the command ends with this response (R19, R37), and the block waits for the next one. -/
def respond (code : ResultCode) (data : RespData) (s : State) : State :=
  { s with phase := .idle, respOut := s.respOut ++ [⟨code, data⟩] }

/-- `raise C`: the command ends with `(C, None)`, no state changed and no frame sent (R291). The block has no trap,
handler or saved state, so this is all that an exception is, and there is no return from one (R293, R295). -/
def raise (code : ResultCode) (s : State) : State := respond code .none s

/-! ## Sending frames -/

/-- How a run of `Send` calls ended. -/
inductive SendResult where
  /-- Every frame was answered Ok; the command's count of sends after them. -/
  | allOk (nsent : Nat)
  /-- The frame with this index in the command was answered Err; the frames after it were not presented (R210). -/
  | failed (i : Nat) (frame : Frame)
  /-- This frame was presented and no answer has come; the frames after it, and the count of sends (R208). -/
  | silent (frame : Frame) (queue : List Frame) (nsent : Nat)
  deriving DecidableEq, Repr

/-- A run of `Send` calls: the frames presented, the answers not used, and how it ended. -/
structure Sending where
  sent : List Frame
  rest : List Answer
  result : SendResult
  deriving DecidableEq, Repr

/-- The loop of `Flush()` and of INIT's power-on frames (R206, R240): present a frame, wait for its answer, go on
after Ok, stop at the first Err, no retry (R209, R210). `nsent` is the number of sends before. -/
def sendFrames (nsent : Nat) : List Frame → List Answer → Sending
  | [], as => ⟨[], as, .allOk nsent⟩
  | f :: fs, [] => ⟨[f], [], .silent f fs (nsent + 1)⟩
  | f :: _, .err :: as => ⟨[f], as, .failed nsent f⟩
  | f :: fs, .ok :: as =>
    let r := sendFrames (nsent + 1) fs as
    ⟨f :: r.sent, r.rest, r.result⟩

/-- The command waits for an answer, or for ever (R208, R334). -/
def awaitAnswer (stage : Stage) (f : Frame) (queue : List Frame) (nsent : Nat) (s : State) : State :=
  s.setPhase (.bus ⟨stage, f, queue, nsent⟩)

/-- `FB <- none; LC <- Detached; respond(Ok, None)`: the end of SHUTDOWN, whatever was answered (R250). -/
def release (s : State) : State := respond .ok .none ((s.setFb none).setLc .detached)

/-- What a command does when its last frame was answered Ok. -/
def endOk : Ending → State → State
  | .flush data, s => respond .ok data s
  | .init, s => respond .ok .none (s.setLc .active)
  | .shutdown, s => release s
  | .blank target, s => respond .ok .none (s.setLc target)

/-- What a command does when one of its frames was answered Err, after the TxFail event: the surface effect stays
(R97, R212), INIT leaves nothing behind (R242), SHUTDOWN goes on (R250), BLANK keeps LC (R260). -/
def endErr : Ending → State → State
  | .flush data, s => respond .transportError data s
  | .init, s => respond .deviceInitFailed .none ((s.setFb none).setLc .detached)
  | .shutdown, s => release s
  | .blank _, s => respond .transportError .none s

/-- The end of a last run of frames. -/
def concludeEnding (e : Ending) (r : SendResult) (s : State) : State :=
  match r with
  | .allOk _ => endOk e s
  | .failed i f => endErr e (s.diag (.txFail i f))
  | .silent f queue nsent => awaitAnswer (.ending e) f queue nsent s

/-- Send a last run of frames and end the command by the answers. -/
def transmit (e : Ending) (nsent : Nat) (frames : List Frame) (s : State) : State :=
  let r := sendFrames nsent frames s.busIn
  concludeEnding e r.result (s.emit r.sent r.rest)

/-- INIT's wait: no effect on any state or output (R14, R331; log 10). -/
def settleWait (_delay : Nat) (s : State) : State := s

/-- INIT after its power-on frames (R240): on Err, Detached and DeviceInitFailed; on Ok, the settle wait, the fresh
zeroed surface and its flush, whose sends are counted on from the power-on frames. -/
def concludePowerOn (r : SendResult) (s : State) : State :=
  match r with
  | .allOk nsent =>
    transmit .init nsent (flushFrames s.params Memory.zeroed)
      ((settleWait Config.settleDelay s).setFb (some Memory.zeroed))
  | .failed i f => respond .deviceInitFailed .none ((s.diag (.txFail i f)).setLc .detached)
  | .silent f queue nsent => awaitAnswer .powerOn f queue nsent s

/-- Send INIT's power-on frames (R240). -/
def transmitPowerOn (s : State) : State :=
  let r := sendFrames 0 (powerOnFrames s.params) s.busIn
  concludePowerOn r.result (s.emit r.sent r.rest)

/-- The end of a run of frames, by its stage. -/
def conclude (stage : Stage) (r : SendResult) (s : State) : State :=
  match stage with
  | .powerOn => concludePowerOn r s
  | .ending e => concludeEnding e r s

/-- A command that waits for the answer to the frame on the bus port: nothing happens until the answer comes (R208,
R334); then the command goes on as if it had been there at once. -/
def resume (job : Job) (s : State) : State :=
  match s.busIn with
  | [] => s
  | .err :: as => conclude job.stage (.failed (job.nsent - 1) job.frame) (s.emit [] as)
  | .ok :: as =>
    let r := sendFrames job.nsent job.queue as
    conclude job.stage r.result (s.emit r.sent r.rest)

/-- `Flush()` of the surface `m` at the end of a command that answers with `data` (R206, R97). -/
def flushThenRespond (data : RespData) (m : Memory) (s : State) : State :=
  transmit (.flush data) 0 (flushFrames s.params m) s

/-- A mutating command: the surface effect in full, then the flush of the new surface (R75, R213, R216). -/
def commitThenFlush (data : RespData) (m : Memory) (s : State) : State :=
  flushThenRespond data m (s.setFb (some m))

/-! ## The common checks -/

/-- Check 4 of R292: UnknownDevice while Detached. Attaching and Detaching are never held between commands (R33). -/
def whenAttached (s : State) (k : Host.Outcome State Fault Refusal) : Host.Outcome State Fault Refusal :=
  match s.lc with
  | .detached => .next (raise .unknownDevice s)
  | .active => k
  | .blanked => k
  | .attaching => .fault .commandInProgress
  | .detaching => .fault .commandInProgress

/-- Check 4 of R292 for the commands that use the surface, which is present while attached (R30). -/
def withSurface (s : State) (k : Memory → State) : Host.Outcome State Fault Refusal :=
  whenAttached s
    (match s.fb with
      | some m => .next (k m)
      | none => .fault .surfaceAbsent)

/-- What executing Illegal does: `raise IllegalCommand` (R103, R288, check 1 of R292). -/
def execIllegal (s : State) : State := raise .illegalCommand s

/-! ## Reset -/

/-- Asserting the reset input (R320): the reset state of R47. A command in progress is abandoned without a response,
its remaining payload is not awaited and its remaining frames are not sent; no frame is sent by reset, and what
the ports have carried stays carried (R321, R322; log 7, log 8). The parameters are fixed for the instance (R42). -/
def afterReset (s : State) : State where
  lc := .detached
  fb := none
  phase := .idle
  params := s.params
  resetIn := false
  cmdIn := []
  busIn := []
  busOut := s.busOut
  respOut := s.respOut
  diagOut := s.diagOut

end Sys2Proof.Machine
end

