-- ==== Sys2Proof/Machine/Control.lean ====
section
/-! DEFINITION. Lifecycle control: NOP, INIT, SHUTDOWN, BLANK (44_lifecycle_control.md). -/

namespace Sys2Proof.Machine

/-- NOP (R265): Ok in every lifecycle state (check 2 of R292). -/
def execNop (s : State) : Host.Outcome State Fault Refusal := .next (respond .ok .none s)

/-- INIT (R240), with check 3 of R292: IllegalCommand unless Detached (R245). -/
def execInit (s : State) : Host.Outcome State Fault Refusal :=
  if s.lc = .detached then .next (transmitPowerOn (s.setLc .attaching)) else .next (raise .illegalCommand s)

/-- SHUTDOWN (R250): one display-off frame, then the surface is released whatever the answer. -/
def execShutdown (s : State) : Host.Outcome State Fault Refusal :=
  whenAttached s (.next (transmit .shutdown 0 [s.params.displayOff] (s.setLc .detaching)))

/-- BLANK mode (R256): Normal sends display-off and leads to Blanked, Unblank display-on and leads to Active; LC
changes only when the frame is answered Ok (R260). -/
def execBlank (mode : Byte) (s : State) : Host.Outcome State Fault Refusal :=
  whenAttached s
    (match blankMode (zextByte mode) with
      | .normal => .next (transmit (.blank .blanked) 0 [s.params.displayOff] s)
      | .unblank => .next (transmit (.blank .active) 0 [s.params.displayOn] s)
      | .unsupported => .next (raise .unsupportedMode s))

end Sys2Proof.Machine
end

