-- ==== Sys2Proof/Machine/Encoder.lean ====
section
/-! DEFINITION. The command of the protocol encoder: FLUSH (43_protocol_encoder.md). The frames and the flush itself
are shared operations (Machine/Ops.lean), since every mutating command and INIT use them. -/

namespace Sys2Proof.Machine

/-- FLUSH (R220): push the surface as it is. -/
def execFlush (s : State) : Host.Outcome State Fault Refusal :=
  withSurface s fun m => flushThenRespond .none m s

end Sys2Proof.Machine
end

