-- ==== Sys2Proof/Machine/Primitives.lean ====
section
/-! DEFINITION. The surface primitives: SET_PIXEL, GET_PIXEL, RAW_WRITE, RAW_READ, PAGE_READ (41_surface_primitives.md). -/

namespace Sys2Proof.Machine

/-- SET_PIXEL x, y, v (R130). -/
def execSetPixel (x y : Byte) (v : Bool) (s : State) : Host.Outcome State Fault Refusal :=
  withSurface s fun m =>
    if inSurface (zextByte x) (zextByte y) then commitThenFlush .none (pixWrite m (zextByte x) (zextByte y) v) s
    else raise .outOfBounds s

/-- GET_PIXEL x, y (R135). -/
def execGetPixel (x y : Byte) (s : State) : Host.Outcome State Fault Refusal :=
  withSurface s fun m =>
    if inSurface (zextByte x) (zextByte y) then respond .ok (.bit (pixRead m (zextByte x) (zextByte y))) s
    else raise .outOfBounds s

/-- The Truncated event, emitted only when `n < len` (R140, R141). -/
def diagTruncated (off len n : Nat) (s : State) : State :=
  if n < len then s.diag (.truncated off len n) else s

/-- RAW_WRITE off, payload (R140); `len` is the length of the payload, which has been consumed in full (R111). -/
def execRawWrite (off : Half) (payload : List Byte) (s : State) : Host.Outcome State Fault Refusal :=
  withSurface s fun m =>
    if inBuffer (zextHalf off) then
      let n := clampLen (zextHalf off) payload.length
      commitThenFlush (.count n) (memWrite m (zextHalf off) (payload.take n))
        (diagTruncated (zextHalf off) payload.length n s)
    else raise .outOfBounds s

/-- RAW_READ off, len (R145). -/
def execRawRead (off len : Half) (s : State) : Host.Outcome State Fault Refusal :=
  withSurface s fun m =>
    if inBuffer (zextHalf off) then
      respond .ok (.bytes (memRead m (zextHalf off) (clampLen (zextHalf off) (zextHalf len)))) s
    else raise .outOfBounds s

/-- PAGE_READ p (R150). -/
def execPageRead (p : Byte) (s : State) : Host.Outcome State Fault Refusal :=
  withSurface s fun m =>
    if zextByte p < Config.pages then
      respond .ok (.page (memRead m (zextByte p * Config.pageBytes) Config.pageBytes) (zextByte p + 1)) s
    else respond .ok (.page [] (zextByte p)) s

end Sys2Proof.Machine
end

