-- ==== Sys2Proof/Machine/RasterOps.lean ====
section
/-! DEFINITION. The raster operations: FILL_RECT and COPY_AREA (42_raster_ops.md). -/

namespace Sys2Proof.Machine

/-- The Clipped event, emitted only when a requested pixel lies outside the surface (R170, R171). -/
def diagClipped (x y w h : Nat) (r : Rect) (s : State) : State :=
  if isClipped w h r then s.diag (.clipped x y w h r.x r.y r.w r.h) else s

/-- FILL_RECT x, y, w, h, c (R170). -/
def execFillRect (x y w h : Byte) (c : Bool) (s : State) : Host.Outcome State Fault Refusal :=
  withSurface s fun m =>
    let r := clipRect (zextByte x) (zextByte y) (zextByte w) (zextByte h)
    commitThenFlush .none (fillRect m r c) (diagClipped (zextByte x) (zextByte y) (zextByte w) (zextByte h) r s)

/-- COPY_AREA sx, sy, dx, dy, w, h (R180). -/
def execCopyArea (sx sy dx dy w h : Byte) (s : State) : Host.Outcome State Fault Refusal :=
  withSurface s fun m =>
    if blockInside (zextByte sx) (zextByte sy) (zextByte w) (zextByte h)
        && blockInside (zextByte dx) (zextByte dy) (zextByte w) (zextByte h) then
      commitThenFlush .none
        (copyArea m (zextByte sx) (zextByte sy) (zextByte dx) (zextByte dy) (zextByte w) (zextByte h)) s
    else raise .outOfBounds s

end Sys2Proof.Machine
end

