-- ==== Sys2Proof/Syntax.lean ====
section
/-! DEFINITION. The commands of the block, one constructor per row of the opcode map (R99, spec/opcode_table.json),
with the operands of its format (R92, R93). -/

namespace Sys2Proof

/-- A command: its operands at the widths of R94; `v` and `c` are one bit, on = true (R21, R64). -/
inductive Instr where
  /-- NOP, format N (R265). -/
  | nop
  /-- FILL_RECT x, y, w, h, c, format RF (R170). -/
  | fillRect (x y w h : Byte) (c : Bool)
  /-- COPY_AREA sx, sy, dx, dy, w, h, format CP (R180). -/
  | copyArea (sx sy dx dy w h : Byte)
  /-- SET_PIXEL x, y, v, format PS (R130). -/
  | setPixel (x y : Byte) (v : Bool)
  /-- GET_PIXEL x, y, format PG (R135). -/
  | getPixel (x y : Byte)
  /-- RAW_WRITE off, payload, format BR (R140). The field `len` is the length of the payload (R110, R120), so it
  is not a second operand. -/
  | rawWrite (off : Half) (payload : List Byte)
  /-- RAW_READ off, len, format BR (R145). -/
  | rawRead (off len : Half)
  /-- PAGE_READ p, format PI (R150). -/
  | pageRead (p : Byte)
  /-- FLUSH, format N (R220). -/
  | flush
  /-- INIT, format N (R240). -/
  | init
  /-- SHUTDOWN, format N (R250). -/
  | shutdown
  /-- BLANK mode, format MD (R256); all 256 modes decode (R104). -/
  | blank (mode : Byte)
  deriving DecidableEq, Repr

end Sys2Proof
end

