-- ==== Sys2Proof/Machine/Dispatch.lean ====
section
/-! DEFINITION. One arm per command. -/

namespace Sys2Proof.Machine

def exec (i : Instr) (s : State) : Host.Outcome State Fault Refusal :=
  match i with
  | .nop => Sys2Proof.Machine.execNop s
  | .fillRect x y w h c => Sys2Proof.Machine.execFillRect x y w h c s
  | .copyArea sx sy dx dy w h => Sys2Proof.Machine.execCopyArea sx sy dx dy w h s
  | .setPixel x y v => Sys2Proof.Machine.execSetPixel x y v s
  | .getPixel x y => Sys2Proof.Machine.execGetPixel x y s
  | .rawWrite off payload => Sys2Proof.Machine.execRawWrite off payload s
  | .rawRead off len => Sys2Proof.Machine.execRawRead off len s
  | .pageRead p => Sys2Proof.Machine.execPageRead p s
  | .flush => Sys2Proof.Machine.execFlush s
  | .init => Sys2Proof.Machine.execInit s
  | .shutdown => Sys2Proof.Machine.execShutdown s
  | .blank mode => Sys2Proof.Machine.execBlank mode s

end Sys2Proof.Machine
end

