-- ==== Sys2Proof/WellFormed.lean ====
section
/-! DEFINITION. Which commands have an encoding. Every operand is held at the width of its field (R94), so the one
check left is the length of a RAW_WRITE payload, which its 16-bit `len` field must hold (R94, R110, R120). -/

namespace Sys2Proof

/-- R120: "a list of more than 65535 bytes is an assembly error". Every other command is well formed. -/
def Instr.wellFormed : Instr → Bool
  | .nop => true
  | .fillRect _ _ _ _ _ => true
  | .copyArea _ _ _ _ _ _ => true
  | .setPixel _ _ _ => true
  | .getPixel _ _ => true
  | .rawWrite _ payload => payload.length ≤ 65535
  | .rawRead _ _ => true
  | .pageRead _ => true
  | .flush => true
  | .init => true
  | .shutdown => true
  | .blank _ => true

end Sys2Proof
end

