-- ==== Sys2Proof/Decode.lean ====
section
/-! DEFINITION. The decoder and the encoder of the command stream: the little-endian command word (R91), the eight
formats (R92), the total decoding function with its reserved bits (R100, R101, R103), the RAW_WRITE payload
(R110, R111), and the length of a command (R112). -/

namespace Sys2Proof

/-! ## The command word -/

/-- `cw[lo+7 : lo]`, an 8-bit field (R17, R92). -/
def fieldByte (cw : CmdWord) (lo : Nat) : Byte := cw.extractLsb' lo 8

/-- `cw[lo+15 : lo]`, a 16-bit field. -/
def fieldHalf (cw : CmdWord) (lo : Nat) : Half := cw.extractLsb' lo 16

/-- `cw[i]`, a 1-bit field. -/
def fieldBit (cw : CmdWord) (i : Nat) : Bool := cw.getLsbD i

/-- `cw[63:lo] == 0`: the reserved bits of a format, all its bits from `lo` up (R92, R103). -/
def reservedClear (cw : CmdWord) (lo : Nat) : Bool := cw >>> lo == 0#64

/-- The 8 stream bytes of a word, least significant first (R91). -/
def wordBytes (cw : CmdWord) : List Byte :=
  [fieldByte cw 0, fieldByte cw 8, fieldByte cw 16, fieldByte cw 24,
   fieldByte cw 32, fieldByte cw 40, fieldByte cw 48, fieldByte cw 56]

/-- The word that 8 stream bytes carry, the first byte least significant (R91). -/
def wordOfBytes (b0 b1 b2 b3 b4 b5 b6 b7 : Byte) : CmdWord :=
  b7 ++ b6 ++ b5 ++ b4 ++ b3 ++ b2 ++ b1 ++ b0

/-- Take one command word off the front of the stream, if all its 8 bytes are there. -/
def takeWord : List Byte → Option (CmdWord × List Byte)
  | b0 :: b1 :: b2 :: b3 :: b4 :: b5 :: b6 :: b7 :: rest => some (wordOfBytes b0 b1 b2 b3 b4 b5 b6 b7, rest)
  | _ => none

/-- The opcode of the one command that has a payload (R110, R111). -/
abbrev rawWriteOp : Byte := 0x30#8

/-- How many payload bytes follow a command word: `cw[39:24]` whenever stream byte 0 is 0x30, legal or not (R111). -/
def payloadLen (cw : CmdWord) : Nat := if fieldByte cw 0 = rawWriteOp then (fieldHalf cw 24).toNat else 0

/-- `cmd_length` of R112, from stream bytes 0, 3 and 4. -/
def cmdLength (b0 b3 b4 : Byte) : Nat := if b0 = rawWriteOp then 8 + (b3.toNat + 256 * b4.toNat) else 8

/-! ## Decoding -/

/-- Why a word is Illegal (R103). The block does not report which: both end in IllegalCommand (R288). -/
inductive Reject where
  /-- The opcode is not in the map of R99 (R101). -/
  | illegalOpcode (op : Byte)
  /-- The opcode is in the map and a reserved bit of its format is set (R100). -/
  | reservedBits (op : Byte)
  deriving DecidableEq, Repr

/-- What a word with its payload decodes to: exactly one command or Illegal (R103). -/
inductive Decoded where
  | instr (i : Instr)
  | illegal (r : Reject)
  deriving DecidableEq, Repr

/-- `need cw[63:lo] == 0`, then the command (R103). -/
def need (cw : CmdWord) (lo : Nat) (i : Instr) : Decoded :=
  if reservedClear cw lo then .instr i else .illegal (.reservedBits (fieldByte cw 0))

/-- `decode(cw)` of R103, with the fields of R92. `payload` is the bytes that followed the word (R110). -/
def decodeWord (cw : CmdWord) (payload : List Byte) : Decoded :=
  let op := fieldByte cw 0
  if op = 0x01#8 then need cw 8 .nop
  else if op = 0x10#8 then
    need cw 41 (.fillRect (fieldByte cw 8) (fieldByte cw 16) (fieldByte cw 24) (fieldByte cw 32) (fieldBit cw 40))
  else if op = 0x11#8 then
    need cw 56 (.copyArea (fieldByte cw 8) (fieldByte cw 16) (fieldByte cw 24) (fieldByte cw 32) (fieldByte cw 40)
      (fieldByte cw 48))
  else if op = 0x20#8 then need cw 25 (.setPixel (fieldByte cw 8) (fieldByte cw 16) (fieldBit cw 24))
  else if op = 0x21#8 then need cw 24 (.getPixel (fieldByte cw 8) (fieldByte cw 16))
  else if op = 0x30#8 then need cw 40 (.rawWrite (fieldHalf cw 8) payload)
  else if op = 0x31#8 then need cw 40 (.rawRead (fieldHalf cw 8) (fieldHalf cw 24))
  else if op = 0x32#8 then need cw 16 (.pageRead (fieldByte cw 8))
  else if op = 0x40#8 then need cw 8 .flush
  else if op = 0x50#8 then need cw 8 .init
  else if op = 0x51#8 then need cw 8 .shutdown
  else if op = 0x52#8 then need cw 16 (.blank (fieldByte cw 8))
  else .illegal (.illegalOpcode op)

/-- What the front of a command stream holds. -/
inductive Front where
  /-- Fewer bytes than the command has. -/
  | incomplete
  /-- One whole command, decoded, and the bytes after it. -/
  | command (d : Decoded) (rest : List Byte)
  deriving DecidableEq, Repr

/-- Decode the first command of a byte stream: the word, then as many payload bytes as it calls for (R110, R111). -/
def decodeStream (bytes : List Byte) : Front :=
  match takeWord bytes with
  | none => .incomplete
  | some (cw, rest) =>
    if rest.length < payloadLen cw then .incomplete
    else .command (decodeWord cw (rest.take (payloadLen cw))) (rest.drop (payloadLen cw))

/-! ## Encoding -/

/-- The command word of a command: the fields of its format (R92) above its opcode (R99), reserved bits 0. -/
def encodeWord : Instr → CmdWord
  | .nop => 0#56 ++ 0x01#8
  | .fillRect x y w h c => 0#23 ++ BitVec.ofBool c ++ h ++ w ++ y ++ x ++ 0x10#8
  | .copyArea sx sy dx dy w h => 0#8 ++ h ++ w ++ dy ++ dx ++ sy ++ sx ++ 0x11#8
  | .setPixel x y v => 0#39 ++ BitVec.ofBool v ++ y ++ x ++ 0x20#8
  | .getPixel x y => 0#40 ++ y ++ x ++ 0x21#8
  | .rawWrite off payload => 0#24 ++ BitVec.ofNat 16 payload.length ++ off ++ 0x30#8
  | .rawRead off len => 0#24 ++ len ++ off ++ 0x31#8
  | .pageRead p => 0#48 ++ p ++ 0x32#8
  | .flush => 0#56 ++ 0x40#8
  | .init => 0#56 ++ 0x50#8
  | .shutdown => 0#56 ++ 0x51#8
  | .blank mode => 0#48 ++ mode ++ 0x52#8

/-- The payload bytes that follow the word: RAW_WRITE only (R90, R110). -/
def Instr.payload : Instr → List Byte
  | .rawWrite _ payload => payload
  | .nop => []
  | .fillRect _ _ _ _ _ => []
  | .copyArea _ _ _ _ _ _ => []
  | .setPixel _ _ _ => []
  | .getPixel _ _ => []
  | .rawRead _ _ => []
  | .pageRead _ => []
  | .flush => []
  | .init => []
  | .shutdown => []
  | .blank _ => []

/-- The stream bytes of a command: its word, least significant byte first (R91), then its payload (R110). -/
def encode (i : Instr) : List Byte := wordBytes (encodeWord i) ++ i.payload

/-! ## The opcode table's words -/

/-- The stream of the instruction whose first `nbits` bits are `w`, numbered as the opcode table numbers them, every
bit above them 0: the 8 bytes of the word, least significant first (R91), then its payload bytes. -/
def tableStream (nbits w : Nat) : List Byte :=
  let v := w % 2 ^ nbits
  (List.range (8 + payloadLen (BitVec.ofNat 64 v))).map fun j => BitVec.ofNat 8 (v >>> (8 * j))

/-- The instruction the decoder reads from a table word; none where the word is Illegal. -/
def decodeTableWord (nbits w : Nat) : Option Instr :=
  match decodeStream (tableStream nbits w) with
  | .command (.instr i) _ => some i
  | .command (.illegal _) _ => none
  | .incomplete => none

/-- One row of the opcode table as data: a word belongs to the row when `word &&& mask = pattern`. -/
structure OpcodeRow where
  mnemonic : String
  pattern : CmdWord
  mask : CmdWord
  deriving DecidableEq, Repr

/-- The opcode table of spec/opcode_table.json: the reserved bits and the opcode of each format (R92, R99). -/
def opcodeTable : List OpcodeRow :=
  [⟨"NOP", 0x01#64, 0xFFFFFFFFFFFFFFFF#64⟩, ⟨"FILL_RECT", 0x10#64, 0xFFFFFE00000000FF#64⟩,
   ⟨"COPY_AREA", 0x11#64, 0xFF000000000000FF#64⟩, ⟨"SET_PIXEL", 0x20#64, 0xFFFFFFFFFE0000FF#64⟩,
   ⟨"GET_PIXEL", 0x21#64, 0xFFFFFFFFFF0000FF#64⟩, ⟨"RAW_WRITE", 0x30#64, 0xFFFFFF00000000FF#64⟩,
   ⟨"RAW_READ", 0x31#64, 0xFFFFFF00000000FF#64⟩, ⟨"PAGE_READ", 0x32#64, 0xFFFFFFFFFFFF00FF#64⟩,
   ⟨"FLUSH", 0x40#64, 0xFFFFFFFFFFFFFFFF#64⟩, ⟨"INIT", 0x50#64, 0xFFFFFFFFFFFFFFFF#64⟩,
   ⟨"SHUTDOWN", 0x51#64, 0xFFFFFFFFFFFFFFFF#64⟩, ⟨"BLANK", 0x52#64, 0xFFFFFFFFFFFF00FF#64⟩]

/-- The row a command belongs to, by mnemonic (R99). -/
def Instr.mnemonic : Instr → String
  | .nop => "NOP"
  | .fillRect _ _ _ _ _ => "FILL_RECT"
  | .copyArea _ _ _ _ _ _ => "COPY_AREA"
  | .setPixel _ _ _ => "SET_PIXEL"
  | .getPixel _ _ => "GET_PIXEL"
  | .rawWrite _ _ => "RAW_WRITE"
  | .rawRead _ _ => "RAW_READ"
  | .pageRead _ => "PAGE_READ"
  | .flush => "FLUSH"
  | .init => "INIT"
  | .shutdown => "SHUTDOWN"
  | .blank _ => "BLANK"

end Sys2Proof
end

