-- ==== Sys2Proof/Machine/Fetch.lean ====
section
/-! DEFINITION. The command port: taking a command word and its payload from the host (R35, R73, R110, R111), waiting
for what has not come yet (R333, R334), and presenting a table word on the port. -/

namespace Sys2Proof.Machine

/-- What one look at the ports comes to. -/
inductive Fetch where
  /-- No whole command to execute: the state after what could be taken was taken. -/
  | wait (s : State)
  /-- A whole command, decoded, and the state with its bytes taken. -/
  | run (d : Decoded) (s : State)
  deriving DecidableEq, Repr

/-- The payload phase (R43, R111): take the bytes still due; if some have not come, hold the count of those still due;
else the command is complete and is decoded (R103). -/
def takePayload (cw : CmdWord) (got : List Byte) (due : Nat) (s : State) : Fetch :=
  if s.cmdIn.length < due then
    .wait ((s.setPhase (.payload cw (got ++ s.cmdIn) (due - s.cmdIn.length))).setCmdIn [])
  else
    .run (decodeWord cw (got ++ s.cmdIn.take due)) ((s.setPhase .idle).setCmdIn (s.cmdIn.drop due))

/-- Take the next command. While a command is in progress the port accepts nothing else (R73, R111): a waiting
RAW_WRITE takes payload, a waiting Send takes its answer. A word whose 8 bytes are not all there is not taken
(log 4). -/
def fetch (s : State) : Fetch :=
  match s.phase with
  | .bus job => .wait (resume job s)
  | .payload cw got due => takePayload cw got due s
  | .idle =>
    match takeWord s.cmdIn with
    | none => .wait s
    | some (cw, rest) => takePayload cw [] (payloadLen cw) (s.setCmdIn rest)

/-- A table word, its bytes first on the command port, on an instance between two commands. -/
def presentWord (s : State) (nbits w : Nat) : State :=
  { s with phase := .idle, resetIn := false, cmdIn := tableStream nbits w ++ s.cmdIn }

end Sys2Proof.Machine
end

