-- ==== Sys2Proof/Machine/Step.lean ====
section
/-! DEFINITION. One step of the instance: reset if its input is asserted (R320), else take the next command and run it
to completion (R73, R292), or wait. -/

namespace Sys2Proof.Machine

/-- `execute(cw, payload)` of R292 for the next command on the port. A step that finds nothing to do is a wait: the
next state is the same state (log 3). -/
def step (s : State) : Host.Outcome State Fault Refusal :=
  if s.resetIn then .next (afterReset s)
  else
    match fetch s with
    | .wait t => .next t
    | .run (.illegal _) t => .next (execIllegal t)
    | .run (.instr i) t => exec i t

/-- `s` with a table word presented on the command port, so that the next step takes and runs it (log 13). -/
def State.withFetchWord (s : State) (nbits w : Nat) : State := presentWord s nbits w

end Sys2Proof.Machine
end

