-- ==== Sys2Proof/Machine/Assembler.lean ====
section
/-! DEFINITION. The assembler's view of a command: mnemonic syntax (R120), operands as the numbers a programmer writes,
range errors (R94, R120), and the pseudo-commands (R121). How strict the text is, log 17 says. -/

namespace Sys2Proof.Machine

/-- A line of assembly, operands not yet checked: the commands of R120, then the pseudo-commands of R121. -/
inductive AsmLine where
  | nop
  | fillRect (x y w h c : Nat)
  | copyArea (sx sy dx dy w h : Nat)
  | setPixel (x y v : Nat)
  | getPixel (x y : Nat)
  | rawWrite (off : Nat) (bytes : List Nat)
  | rawRead (off len : Nat)
  | pageRead (p : Nat)
  | flush
  | init
  | shutdown
  | blank (mode : Nat)
  | clear
  | fillAll
  | clrPixel (x y : Nat)
  | putFrame (bytes : List Nat)
  | unblank
  | blankNormal
  | dump
  deriving DecidableEq, Repr

/-- Why a text is not assembled. -/
inductive AsmError where
  /-- The text is not a line of R120 or R121. -/
  | syntaxError
  /-- An operand is out of its field's range (R94, R120). -/
  | operandRange
  /-- More than 65535 payload bytes, or a PUT_FRAME whose list has not 1024 (R120, R121). -/
  | listLength
  deriving DecidableEq, Repr

/-- What a line assembles to. -/
inductive Assembled where
  | commands (l : List Instr)
  | error (e : AsmError)
  deriving DecidableEq, Repr

/-! ## Operand ranges and expansion -/

/-- One command, if every operand is in the range of its field (R94). -/
def inRange (ok : Bool) (i : Instr) : Assembled := if ok then .commands [i] else .error .operandRange

/-- All numbers are below a bound. -/
def allBelow (bound : Nat) (ns : List Nat) : Bool := ns.all (· < bound)

/-- A number in an 8-bit field. -/
def toByte (n : Nat) : Byte := BitVec.ofNat 8 n

/-- A number in a 16-bit field. -/
def toHalf (n : Nat) : Half := BitVec.ofNat 16 n

/-- RAW_WRITE: `len` is the number of listed bytes (R120). -/
def assembleRawWrite (off : Nat) (bytes : List Nat) : Assembled :=
  if bytes.length ≤ 65535 then
    inRange (off < 65536 && allBelow 256 bytes) (.rawWrite (toHalf off) (bytes.map toByte))
  else .error .listLength

/-- A line of assembly as commands (R120, R121). -/
def AsmLine.assemble : AsmLine → Assembled
  | .nop => .commands [.nop]
  | .fillRect x y w h c =>
    inRange (allBelow 256 [x, y, w, h] && c < 2) (.fillRect (toByte x) (toByte y) (toByte w) (toByte h) (c == 1))
  | .copyArea sx sy dx dy w h =>
    inRange (allBelow 256 [sx, sy, dx, dy, w, h])
      (.copyArea (toByte sx) (toByte sy) (toByte dx) (toByte dy) (toByte w) (toByte h))
  | .setPixel x y v => inRange (allBelow 256 [x, y] && v < 2) (.setPixel (toByte x) (toByte y) (v == 1))
  | .getPixel x y => inRange (allBelow 256 [x, y]) (.getPixel (toByte x) (toByte y))
  | .rawWrite off bytes => assembleRawWrite off bytes
  | .rawRead off len => inRange (allBelow 65536 [off, len]) (.rawRead (toHalf off) (toHalf len))
  | .pageRead p => inRange (p < 256) (.pageRead (toByte p))
  | .flush => .commands [.flush]
  | .init => .commands [.init]
  | .shutdown => .commands [.shutdown]
  | .blank mode => inRange (mode < 256) (.blank (toByte mode))
  | .clear => .commands [.fillRect 0 0 128 64 false]
  | .fillAll => .commands [.fillRect 0 0 128 64 true]
  | .clrPixel x y => inRange (allBelow 256 [x, y]) (.setPixel (toByte x) (toByte y) false)
  | .putFrame bytes => if bytes.length = 1024 then assembleRawWrite 0 bytes else .error .listLength
  | .unblank => .commands [.blank 0]
  | .blankNormal => .commands [.blank 1]
  | .dump => .commands ((List.range 9).map fun p => .pageRead (toByte p))

/-! ## The text of a line -/

/-- The pieces of a line. -/
inductive Token where
  | word (cs : List Char)
  | comma
  | opening
  | closing
  deriving DecidableEq, Repr

/-- The word read so far, its last character first, as a token if there is one. -/
def endWord (acc : List Char) : List Token := if acc.isEmpty then [] else [.word acc.reverse]

/-- Cut a line into tokens; `;` starts a comment (R120 writes one so). -/
def tokens (acc : List Char) : List Char → List Token
  | [] => endWord acc
  | c :: cs =>
    if c = ';' then endWord acc
    else if c = ' ' ∨ c = '\t' then endWord acc ++ tokens [] cs
    else if c = ',' then endWord acc ++ .comma :: tokens [] cs
    else if c = '[' then endWord acc ++ .opening :: tokens [] cs
    else if c = ']' then endWord acc ++ .closing :: tokens [] cs
    else tokens (c :: acc) cs

/-- The value of a digit in a base up to 16. -/
def digitValue (base : Nat) (c : Char) : Option Nat :=
  let v := if '0' ≤ c ∧ c ≤ '9' then c.toNat - 48
    else if 'a' ≤ c ∧ c ≤ 'f' then c.toNat - 87
    else if 'A' ≤ c ∧ c ≤ 'F' then c.toNat - 55
    else 16
  if v < base then some v else none

/-- The number that digits write after a number already read. -/
def digits (base : Nat) (n : Nat) : List Char → Option Nat
  | [] => some n
  | c :: cs => (digitValue base c).bind fun v => digits base (base * n + v) cs

/-- A number, decimal or `0x` hexadecimal (R120). -/
def number : List Char → Option Nat
  | [] => none
  | '0' :: 'x' :: c :: cs => digits 16 0 (c :: cs)
  | c :: cs => digits 10 0 (c :: cs)

/-- Numbers separated by commas. -/
def numbers : List Token → Option (List Nat)
  | [.word w] => (number w).map fun n => [n]
  | .word w :: .comma :: ts => (number w).bind fun n => (numbers ts).map (n :: ·)
  | _ => none

/-- A bracketed list of numbers, which may be empty, to the end of the line. -/
def bracketed : List Token → Option (List Nat)
  | [.opening, .closing] => some []
  | .opening :: ts => if ts.getLast? = some .closing then numbers ts.dropLast else none
  | _ => none

/-- The operand of BLANK: a number, or the name of a mode (R120). -/
def modeOperand : List Token → Option Nat
  | [.word w] => if w = "Unblank".toList then some 0 else if w = "Normal".toList then some 1 else number w
  | _ => none

/-- A line without operands. -/
def bare (ts : List Token) (l : AsmLine) : Option AsmLine := if ts.isEmpty then some l else none

/-- The line of a mnemonic with its operand tokens (R120, R121). -/
def operandsOf (w : String) (ts : List Token) : Option AsmLine :=
  if w = "NOP" then bare ts .nop
  else if w = "FLUSH" then bare ts .flush
  else if w = "INIT" then bare ts .init
  else if w = "SHUTDOWN" then bare ts .shutdown
  else if w = "CLEAR" then bare ts .clear
  else if w = "FILL_ALL" then bare ts .fillAll
  else if w = "UNBLANK" then bare ts .unblank
  else if w = "BLANK_NORMAL" then bare ts .blankNormal
  else if w = "DUMP" then bare ts .dump
  else if w = "BLANK" then (modeOperand ts).map .blank
  else if w = "PUT_FRAME" then (bracketed ts).map .putFrame
  else if w = "RAW_WRITE" then
    match ts with
    | .word off :: .comma :: rest => (number off).bind fun n => (bracketed rest).map (.rawWrite n)
    | _ => none
  else
    match numbers ts with
    | some [x, y, w', h, c] => if w = "FILL_RECT" then some (.fillRect x y w' h c) else none
    | some [sx, sy, dx, dy, w', h] => if w = "COPY_AREA" then some (.copyArea sx sy dx dy w' h) else none
    | some [x, y, v] => if w = "SET_PIXEL" then some (.setPixel x y v) else none
    | some [a, b] =>
      if w = "GET_PIXEL" then some (.getPixel a b)
      else if w = "RAW_READ" then some (.rawRead a b)
      else if w = "CLR_PIXEL" then some (.clrPixel a b)
      else none
    | some [p] => if w = "PAGE_READ" then some (.pageRead p) else none
    | _ => none

/-- The line that a text writes, if it is one. -/
def parseLine (text : String) : Option AsmLine :=
  match tokens [] text.toList with
  | .word w :: ts => operandsOf (String.ofList w) ts
  | _ => none

/-- A text as commands: one command or pseudo-command (R120, R121). -/
def assembleText (text : String) : Assembled :=
  match parseLine text with
  | some l => l.assemble
  | none => .error .syntaxError

/-- The stream bytes of what a text assembles to (R91, R110); none where it is an error. -/
def streamOf (text : String) : Option (List Byte) :=
  match assembleText text with
  | .commands l => some (l.flatMap encode)
  | .error _ => none

end Sys2Proof.Machine
end

