-- ==== Sys2Proof/Safety.lean ====
section
/-! DEFINITION. The terms claims are stated in: what state a run can reach (Inv), when the instance is ready for a
command, which commands flush and when their operands are accepted, and which codes and lifecycle changes the spec
allows each command (R34, R289). -/

namespace Sys2Proof.Machine

/-! ## Ready and attached -/

/-- Attached: LC is Active or Blanked (R23). -/
abbrev State.attached (s : State) : Prop := s.lc = .active ∨ s.lc = .blanked

/-- Between two commands, attached, with the surface `m` (R30, R33). -/
abbrev State.ready (s : State) (m : Memory) : Prop :=
  s.phase = .idle ∧ s.attached ∧ s.fb = some m ∧ Memory.wf m = true

/-- The transport's next `n` answers are all Ok, and `rest` follows. -/
abbrev State.answersOk (s : State) (n : Nat) (rest : List Answer) : Prop := s.busIn = List.replicate n .ok ++ rest

/-- The transport answers the next `k` sends Ok and the one after them Err, and `rest` follows. -/
abbrev State.answersErrAt (s : State) (k : Nat) (rest : List Answer) : Prop :=
  s.busIn = List.replicate k .ok ++ .err :: rest

/-! ## Commands by what they do -/

/-- The commands that end in a flush of their own: FLUSH and the mutating commands (R23, R216). -/
def flushes : Instr → Bool
  | .nop => false
  | .fillRect _ _ _ _ _ => true
  | .copyArea _ _ _ _ _ _ => true
  | .setPixel _ _ _ => true
  | .getPixel _ _ => false
  | .rawWrite _ _ => true
  | .rawRead _ _ => false
  | .pageRead _ => false
  | .flush => true
  | .init => false
  | .shutdown => false
  | .blank _ => false

/-- The operand check of the command's rule passes (check 5 of R292, R282, R286). -/
def operandsOk : Instr → Bool
  | .nop => true
  | .fillRect _ _ _ _ _ => true
  | .copyArea sx sy dx dy w h =>
    sx.toNat + w.toNat ≤ 128 && sy.toNat + h.toNat ≤ 64 && dx.toNat + w.toNat ≤ 128 && dy.toNat + h.toNat ≤ 64
  | .setPixel x y _ => x.toNat < 128 && y.toNat < 64
  | .getPixel x y => x.toNat < 128 && y.toNat < 64
  | .rawWrite off _ => off.toNat < 1024
  | .rawRead off _ => off.toNat < 1024
  | .pageRead _ => true
  | .flush => true
  | .init => true
  | .shutdown => true
  | .blank mode => mode.toNat < 2

/-- The code of a failed operand check: OutOfBounds, or UnsupportedMode for BLANK (R282, R286). -/
def operandCode : Instr → ResultCode
  | .nop => .outOfBounds
  | .fillRect _ _ _ _ _ => .outOfBounds
  | .copyArea _ _ _ _ _ _ => .outOfBounds
  | .setPixel _ _ _ => .outOfBounds
  | .getPixel _ _ => .outOfBounds
  | .rawWrite _ _ => .outOfBounds
  | .rawRead _ _ => .outOfBounds
  | .pageRead _ => .outOfBounds
  | .flush => .outOfBounds
  | .init => .outOfBounds
  | .shutdown => .outOfBounds
  | .blank _ => .unsupportedMode

/-- NOP and INIT, the commands a Detached instance accepts (R284, R320). -/
def acceptedDetached : Instr → Bool
  | .nop => true
  | .fillRect _ _ _ _ _ => false
  | .copyArea _ _ _ _ _ _ => false
  | .setPixel _ _ _ => false
  | .getPixel _ _ => false
  | .rawWrite _ _ => false
  | .rawRead _ _ => false
  | .pageRead _ => false
  | .flush => false
  | .init => true
  | .shutdown => false
  | .blank _ => false

/-- The table of R289, less its IllegalCommand column for words that do not decode: which code a command that was
decoded can return. -/
def mayReturn : Instr → List ResultCode
  | .nop => [.ok]
  | .fillRect _ _ _ _ _ => [.ok, .transportError, .unknownDevice]
  | .copyArea _ _ _ _ _ _ => [.ok, .outOfBounds, .transportError, .unknownDevice]
  | .setPixel _ _ _ => [.ok, .outOfBounds, .transportError, .unknownDevice]
  | .getPixel _ _ => [.ok, .outOfBounds, .unknownDevice]
  | .rawWrite _ _ => [.ok, .outOfBounds, .transportError, .unknownDevice]
  | .rawRead _ _ => [.ok, .outOfBounds, .unknownDevice]
  | .pageRead _ => [.ok, .unknownDevice]
  | .flush => [.ok, .transportError, .unknownDevice]
  | .init => [.ok, .deviceInitFailed, .illegalCommand]
  | .shutdown => [.ok, .unknownDevice]
  | .blank _ => [.ok, .transportError, .unknownDevice, .unsupportedMode]

/-- The `need` lines of R103 as a table: how many low bits the format of an opcode uses; every bit above is reserved. -/
def usedBits (op : Nat) : Option Nat :=
  if op = 0x01 ∨ op = 0x40 ∨ op = 0x50 ∨ op = 0x51 then some 8
  else if op = 0x20 then some 25
  else if op = 0x21 then some 24
  else if op = 0x10 then some 41
  else if op = 0x11 then some 56
  else if op = 0x30 ∨ op = 0x31 then some 40
  else if op = 0x32 ∨ op = 0x52 then some 16
  else none

/-- The pixels that are on, counted row by row (R64, R172). -/
def onPixels (m : Memory) : Nat :=
  ((List.range 64).map fun y => (List.range 128).countP fun x => pixRead m x y).sum

/-- The codes of a command that was turned away with no effect (R290). -/
def rejectCodes : List ResultCode := [.outOfBounds, .unknownDevice, .unsupportedMode, .illegalCommand]

/-- The changes of LC over a whole command, from the table of R34: from, command, to. INIT leads to Active or, a frame
answered Err, back to Detached; BLANK to the state its mode names or, its frame answered Err, nowhere; SHUTDOWN to
Detached always. No other command, and none of these from another state, changes LC. -/
def lcChange : Lifecycle → Instr → Lifecycle → Bool
  | .detached, .init, b => b == .active || b == .detached
  | .active, .blank m, b => b == .active || (b == .blanked && m.toNat == 1)
  | .blanked, .blank m, b => b == .blanked || (b == .active && m.toNat == 0)
  | .active, .shutdown, b => b == .detached
  | .blanked, .shutdown, b => b == .detached
  | a, _, b => a == b

/-! ## The states a run can reach -/

/-- Data of a response has the shape its command gives it (R96): at most 1024 bytes, a page of 128 bytes or none. -/
def dataOk : RespData → Bool
  | .none => true
  | .bit _ => true
  | .count n => n ≤ 1024
  | .bytes l => l.length ≤ 1024
  | .page l next => (l.length == 128 && 1 ≤ next && next ≤ 8) || (l.isEmpty && 8 ≤ next && next ≤ 255)

/-- A response the block can return: its data in shape, its code never CapacityExceeded (R285). -/
def responseOk (r : Response) : Bool := r.code != .capacityExceeded && dataOk r.data

/-- Between two commands: Detached without a surface, or attached with one (R30, R33). -/
def State.resting (s : State) : Prop := (s.lc = .detached ∧ s.fb = none) ∨ (s.attached ∧ s.fb.isSome)

/-- Where LC and FB stand while a frame of a command waits for its answer (R30, R34, R240, R250, R256). -/
def State.stageOk (s : State) : Stage → Prop
  | .powerOn => s.lc = .attaching ∧ s.fb = none
  | .ending (.flush data) => s.attached ∧ s.fb.isSome ∧ dataOk data = true
  | .ending .init => s.lc = .attaching ∧ s.fb = some Memory.zeroed
  | .ending .shutdown => s.lc = .detaching ∧ s.fb.isSome
  | .ending (.blank target) => s.attached ∧ s.fb.isSome ∧ (target = .active ∨ target = .blanked)

/-- A command waits: its frame is the last one presented, it and those after it are frames, and its count of sends
has begun (R200, R206). -/
def State.jobOk (s : State) (job : Job) : Prop :=
  s.stageOk job.stage ∧ s.busOut.getLast? = some job.frame ∧ 1 ≤ job.nsent ∧ ∀ f ∈ job.queue, frameOk f = true

/-- The phase agrees with the rest of the state: a count of payload bytes due is above 0, belongs to an accepted
RAW_WRITE word and adds up to its `len` (R43, R111). -/
def State.phaseOk (s : State) : Prop :=
  match s.phase with
  | .idle => s.resting
  | .payload cw got due => s.resting ∧ 1 ≤ due ∧ got.length + due = payloadLen cw
  | .bus job => s.jobOk job

/-- What every state of a run has: a canonical surface of 1024 bytes (R46), parameters as R13 constrains them, a phase
that agrees with LC and FB (R30, R33), only frames of 1 to 17 bytes on the bus (R200), only responses of R96 and
R280 on the response port. -/
structure State.Inv (s : State) : Prop where
  surface : ∀ m, s.fb = some m → Memory.wf m = true
  paramsOk : s.params.wf = true
  phaseOk : s.phaseOk
  frames : ∀ f ∈ s.busOut, frameOk f = true
  responses : ∀ r ∈ s.respOut, responseOk r = true

/-! ## States that differ only in what has gone out -/

/-- The state with earlier output put before its own. -/
def State.afterOutputs (s : State) (frames : List Frame) (resps : List Response) (diags : List Diag) : State :=
  { s with busOut := frames ++ s.busOut, respOut := resps ++ s.respOut, diagOut := diags ++ s.diagOut }

/-- A step's outcome with earlier output put before it. -/
def outcomeAfterOutputs (frames : List Frame) (resps : List Response) (diags : List Diag) :
    Host.Outcome State Fault Refusal → Host.Outcome State Fault Refusal
  | .next t => .next (t.afterOutputs frames resps diags)
  | .fault r => .fault r
  | .refused r => .refused r

end Sys2Proof.Machine
end

