-- ==== Sys2Proof/Certificates/Slice0/Obligations.lean ====
section
/-! DEFINITION. The statements for the provers. Every statement about a command that completes says its whole next
state, so its frame is in it: each field that the record does not name is as before. Statements about the surface
say every pixel and every byte. Literals 128, 64 and 1024 are W, H and BUF_LEN (R10). -/

open Sys2Proof Sys2Proof.Machine

/-! ## Encoding -/

/-- R122: the spec's twelve encoding examples: the word that each command has, its stream bytes, and that the decoder reads
the command from them. -/
def Obligations.EncodingExamplesDecode : Prop :=
  ∀ e ∈ ([(0x0000000000000001, [0x01, 0, 0, 0, 0, 0, 0, 0], .nop),
      (0x00000114140A0A10, [0x10, 0x0A, 0x0A, 0x14, 0x14, 0x01, 0, 0], .fillRect 10 10 20 20 true),
      (0x0004040800060011, [0x11, 0, 0x06, 0, 0x08, 0x04, 0x04, 0], .copyArea 0 6 0 8 4 4),
      (0x00000000013F7F20, [0x20, 0x7F, 0x3F, 0x01, 0, 0, 0, 0], .setPixel 127 63 true),
      (0x0000000000090321, [0x21, 0x03, 0x09, 0, 0, 0, 0, 0], .getPixel 3 9),
      (0x000000000803FC30, [0x30, 0xFC, 0x03, 0x08, 0, 0, 0, 0, 1, 2, 3, 4, 5, 6, 7, 8],
        .rawWrite 1020 [1, 2, 3, 4, 5, 6, 7, 8]),
      (0x0000000400000031, [0x31, 0, 0, 0, 0x04, 0, 0, 0], .rawRead 0 1024),
      (0x0000000000000732, [0x32, 0x07, 0, 0, 0, 0, 0, 0], .pageRead 7),
      (0x0000000000000040, [0x40, 0, 0, 0, 0, 0, 0, 0], .flush),
      (0x0000000000000050, [0x50, 0, 0, 0, 0, 0, 0, 0], .init),
      (0x0000000000000051, [0x51, 0, 0, 0, 0, 0, 0, 0], .shutdown),
      (0x0000000000000152, [0x52, 0x01, 0, 0, 0, 0, 0, 0], .blank 1)] : List (CmdWord × List Byte × Instr)),
    encodeWord e.2.2 = e.1 ∧ wordBytes e.1 = e.2.1.take 8 ∧ decodeStream e.2.1 = .command (.instr e.2.2) []

/-- Decode and encode agree: from a stream that begins with the encoding of a well-formed command, the decoder reads
that command, every operand at every value, and leaves the rest (R91, R92, R103, R110). -/
def Obligations.DecodeOfEncodeIsTheCommand : Prop :=
  ∀ (i : Instr) (rest : List Byte), i.wellFormed = true →
    decodeStream (encode i ++ rest) = .command (.instr i) rest

/-- Each command has one encoding: a word that decodes to a command is the word the encoder gives it, and the payload
is the command's own (R103: every word decodes to exactly one command or to Illegal). -/
def Obligations.EncodeOfDecodeIsTheWord : Prop :=
  ∀ (cw : CmdWord) (payload : List Byte) (i : Instr), payload.length = payloadLen cw →
    decodeWord cw payload = .instr i → encodeWord i = cw ∧ i.payload = payload ∧ i.wellFormed = true

/-- R103: a word is a command exactly when its opcode is in the map and the bits its format does not use are 0;
every other word is Illegal. -/
def Obligations.DecodeAcceptsExactlyTheOpcodeMap : Prop :=
  ∀ (cw : CmdWord) (payload : List Byte),
    (∃ i, decodeWord cw payload = .instr i) ↔ ∃ n, usedBits (cw.toNat % 256) = some n ∧ cw.toNat < 2 ^ n

/-- R112, R111, R103: a word whose payload bytes are all there is a whole command, Illegal or not, read as the word and its
payload decode; and whatever the front of the stream decodes to, Illegal too, the command takes the number of bytes
that its bytes 0, 3 and 4 announce, and the rest is left. -/
def Obligations.CommandTakesItsAnnouncedLength : Prop :=
  (∀ (cw : CmdWord) (p rest : List Byte), p.length = payloadLen cw →
    decodeStream (wordBytes cw ++ p ++ rest) = .command (decodeWord cw p) rest) ∧
  ∀ (bytes rest : List Byte) (d : Decoded), decodeStream bytes = .command d rest →
    ∃ b0 b3 b4, bytes[0]? = some b0 ∧ bytes[3]? = some b3 ∧ bytes[4]? = some b4 ∧
      cmdLength b0 b3 b4 ≤ bytes.length ∧ rest = bytes.drop (cmdLength b0 b3 b4)

/-- R120, R94: operands that their fields can hold are the fields' values; a line with one that its field cannot hold is
the operand error, and a RAW_WRITE list of more than 65535 bytes the list error. -/
def Obligations.AssembledOperandsAreTheWrittenNumbers : Prop :=
  (∀ (x y w h c : Nat) (i : Instr), (AsmLine.fillRect x y w h c).assemble = .commands [i] ↔
    ∃ x' y' w' h' : Byte, x'.toNat = x ∧ y'.toNat = y ∧ w'.toNat = w ∧ h'.toNat = h ∧ c < 2 ∧
      i = .fillRect x' y' w' h' (c == 1)) ∧
  (∀ x y w h c : Nat, ¬(x < 256 ∧ y < 256 ∧ w < 256 ∧ h < 256 ∧ c < 2) →
    (AsmLine.fillRect x y w h c).assemble = .error .operandRange) ∧
  (∀ (sx sy dx dy w h : Nat) (i : Instr), (AsmLine.copyArea sx sy dx dy w h).assemble = .commands [i] ↔
    ∃ sx' sy' dx' dy' w' h' : Byte, sx'.toNat = sx ∧ sy'.toNat = sy ∧ dx'.toNat = dx ∧ dy'.toNat = dy ∧
      w'.toNat = w ∧ h'.toNat = h ∧ i = .copyArea sx' sy' dx' dy' w' h') ∧
  (∀ sx sy dx dy w h : Nat, ¬(sx < 256 ∧ sy < 256 ∧ dx < 256 ∧ dy < 256 ∧ w < 256 ∧ h < 256) →
    (AsmLine.copyArea sx sy dx dy w h).assemble = .error .operandRange) ∧
  (∀ (x y v : Nat) (i : Instr), (AsmLine.setPixel x y v).assemble = .commands [i] ↔
    ∃ x' y' : Byte, x'.toNat = x ∧ y'.toNat = y ∧ v < 2 ∧ i = .setPixel x' y' (v == 1)) ∧
  (∀ x y v : Nat, ¬(x < 256 ∧ y < 256 ∧ v < 2) → (AsmLine.setPixel x y v).assemble = .error .operandRange) ∧
  (∀ (x y : Nat) (i : Instr), (AsmLine.getPixel x y).assemble = .commands [i] ↔
    ∃ x' y' : Byte, x'.toNat = x ∧ y'.toNat = y ∧ i = .getPixel x' y') ∧
  (∀ x y : Nat, ¬(x < 256 ∧ y < 256) → (AsmLine.getPixel x y).assemble = .error .operandRange) ∧
  (∀ (off : Nat) (bytes : List Nat) (i : Instr), (AsmLine.rawWrite off bytes).assemble = .commands [i] ↔
    ∃ (off' : Half) (pl : List Byte), off'.toNat = off ∧ pl.map BitVec.toNat = bytes ∧ pl.length ≤ 65535 ∧
      i = .rawWrite off' pl) ∧
  (∀ (off : Nat) (bytes : List Nat), bytes.length ≤ 65535 → ¬(off < 65536 ∧ ∀ b ∈ bytes, b < 256) →
    (AsmLine.rawWrite off bytes).assemble = .error .operandRange) ∧
  (∀ (off : Nat) (bytes : List Nat), 65535 < bytes.length →
    (AsmLine.rawWrite off bytes).assemble = .error .listLength) ∧
  (∀ (off len : Nat) (i : Instr), (AsmLine.rawRead off len).assemble = .commands [i] ↔
    ∃ off' len' : Half, off'.toNat = off ∧ len'.toNat = len ∧ i = .rawRead off' len') ∧
  (∀ off len : Nat, ¬(off < 65536 ∧ len < 65536) → (AsmLine.rawRead off len).assemble = .error .operandRange) ∧
  (∀ (p : Nat) (i : Instr), (AsmLine.pageRead p).assemble = .commands [i] ↔
    ∃ p' : Byte, p'.toNat = p ∧ i = .pageRead p') ∧
  (∀ p : Nat, 256 ≤ p → (AsmLine.pageRead p).assemble = .error .operandRange) ∧
  (∀ (mode : Nat) (i : Instr), (AsmLine.blank mode).assemble = .commands [i] ↔
    ∃ mode' : Byte, mode'.toNat = mode ∧ i = .blank mode') ∧
  ∀ mode : Nat, 256 ≤ mode → (AsmLine.blank mode).assemble = .error .operandRange

/-- R121: each pseudo-command assembles to its expansion. -/
def Obligations.PseudoCommandsStandForTheirExpansions : Prop :=
  AsmLine.clear.assemble = (AsmLine.fillRect 0 0 128 64 0).assemble ∧
  AsmLine.fillAll.assemble = (AsmLine.fillRect 0 0 128 64 1).assemble ∧
  (∀ x y, (AsmLine.clrPixel x y).assemble = (AsmLine.setPixel x y 0).assemble) ∧
  (∀ bytes, bytes.length = 1024 → (AsmLine.putFrame bytes).assemble = (AsmLine.rawWrite 0 bytes).assemble) ∧
  AsmLine.unblank.assemble = (AsmLine.blank 0).assemble ∧
  AsmLine.blankNormal.assemble = (AsmLine.blank 1).assemble ∧
  AsmLine.dump.assemble = .commands
    [.pageRead 0, .pageRead 1, .pageRead 2, .pageRead 3, .pageRead 4, .pageRead 5, .pageRead 6, .pageRead 7, .pageRead 8]

/-! ## One step -/

/-- A step runs the decoded command: between two commands, with a whole command at the front of the command port, the
step is exec of that command with its bytes taken (R73, R292). -/
def Obligations.StepRunsTheDecodedCommand : Prop :=
  ∀ (s : State) (i : Instr) (rest : List Byte), s.resetIn = false → s.phase = .idle →
    decodeStream s.cmdIn = .command (.instr i) rest → step s = exec i { s with cmdIn := rest }

/-- R288, R111: a word that is Illegal is answered IllegalCommand, its bytes and any payload are taken, and nothing else
changes. -/
def Obligations.IllegalWordOnlyAnswersIllegalCommand : Prop :=
  ∀ (s : State) (r : Reject) (rest : List Byte), s.resetIn = false → s.phase = .idle →
    decodeStream s.cmdIn = .command (.illegal r) rest →
      step s = .next { s with cmdIn := rest, respOut := s.respOut ++ [⟨.illegalCommand, .none⟩] }

/-- R43, R111: while payload bytes have not all come, the block holds the count still due and does nothing else; and a step
on a payload that came in pieces is the step on the word and the payload there at once. That the phase holds the word and
the bytes that have come beside the count is the model's choice (log 5). -/
def Obligations.PayloadMayComeInPieces : Prop :=
  (∀ (s : State) (cw : CmdWord) (p : List Byte), s.resetIn = false → s.phase = .idle → p.length < payloadLen cw →
    s.cmdIn = wordBytes cw ++ p →
      step s = .next { s with phase := .payload cw p (payloadLen cw - p.length), cmdIn := [] }) ∧
  ∀ (s : State) (cw : CmdWord) (got : List Byte) (due : Nat), s.resetIn = false → s.phase = .payload cw got due →
    got.length + due = payloadLen cw →
      (s.cmdIn.length < due →
        step s = .next { s with phase := .payload cw (got ++ s.cmdIn) (due - s.cmdIn.length), cmdIn := [] }) ∧
      step s = step { s with phase := .idle, cmdIn := wordBytes cw ++ (got ++ s.cmdIn) }

/-- R208, R334: a command that waits for an answer goes on, when the answer comes, exactly as if the answer had been
there at once; nothing of when answers come is seen. -/
def Obligations.AnswersMayComeInPieces : Prop :=
  ∀ (i : Instr) (s t : State) (job : Job) (b : Answer) (bs : List Answer), s.resetIn = false →
    exec i s = .next t → t.phase = .bus job →
      step { t with busIn := b :: bs } = exec i { s with busIn := s.busIn ++ b :: bs }

/-- The model's waits (log 3; R333, R334: the instance waits for ever): with no answer for the frame on the bus, or no
payload byte for a RAW_WRITE, the step changes nothing; nor does it with fewer than 8 bytes of a word on the port, which
is the model's choice (log 4). -/
def Obligations.NothingHappensWithoutInput : Prop :=
  ∀ (s : State), s.resetIn = false →
    ((∃ job, s.phase = .bus job) ∧ s.busIn = [] ∨
      (∃ cw got due, s.phase = .payload cw got due ∧ 0 < due) ∧ s.cmdIn = [] ∨
      s.phase = .idle ∧ s.cmdIn.length < 8) → step s = .next s

/-- R321, R322: asserting reset abandons whatever is in progress: no response, no frame, no event, what was sent stays
sent, and the instance is Detached without a surface, no payload due and no frame in flight. -/
def Obligations.ResetAbandonsTheCommand : Prop :=
  ∀ (s : State), s.resetIn = true →
    ∃ t, step s = .next t ∧ t.lc = .detached ∧ t.fb = none ∧ t.phase = .idle ∧ t.params = s.params ∧
      t.busOut = s.busOut ∧ t.respOut = s.respOut ∧ t.diagOut = s.diagOut

/-- R47: the reset values that the spec gives. -/
def Obligations.ResetStateIsDetachedWithNothingPending : Prop :=
  State.reset.lc = .detached ∧ State.reset.fb = none ∧ State.reset.phase = .idle ∧ State.reset.respOut = [] ∧
    State.reset.diagOut = []

/-! ## NOP and the surface reads -/

/-- R265: NOP returns Ok in every lifecycle state and changes nothing. -/
def Obligations.NopAnswersOkAndChangesNothing : Prop :=
  ∀ (s : State), s.phase = .idle → exec .nop s = .next { s with respOut := s.respOut ++ [⟨.ok, .none⟩] }

/-- R135: GET_PIXEL answers bit `y % 8` of surface byte `(y / 8) * 128 + x` and changes nothing. -/
def Obligations.GetPixelAnswersThePixel : Prop :=
  ∀ (s : State) (m : Memory) (x y : Byte), s.ready m → x.toNat < 128 → y.toNat < 64 →
    exec (.getPixel x y) s = .next { s with
      respOut := s.respOut ++
        [⟨.ok, .bit ((Memory.read m (y.toNat / 8 * 128 + x.toNat)).getLsbD (y.toNat % 8))⟩] }

/-- R145: RAW_READ answers the bytes from `off`, as many as asked for or left in the surface, and changes nothing. -/
def Obligations.RawReadAnswersTheClampedBytes : Prop :=
  ∀ (s : State) (m : Memory) (off len : Half), s.ready m → off.toNat < 1024 →
    ∃ l : List Byte, l.length = min len.toNat (1024 - off.toNat) ∧
      (∀ j, j < l.length → l[j]? = some (Memory.read m (off.toNat + j))) ∧
      exec (.rawRead off len) s = .next { s with respOut := s.respOut ++ [⟨.ok, .bytes l⟩] }

/-- R150: PAGE_READ answers the 128 bytes of page `p` and `p + 1`; from `p = 8` on, the empty record and `p`. It changes
nothing. -/
def Obligations.PageReadAnswersTheRecord : Prop :=
  ∀ (s : State) (m : Memory) (p : Byte), s.ready m →
    ∃ (l : List Byte) (next : Nat),
      (p.toNat < 8 → l.length = 128 ∧ next = p.toNat + 1 ∧
        ∀ j, j < 128 → l[j]? = some (Memory.read m (p.toNat * 128 + j))) ∧
      (8 ≤ p.toNat → l = [] ∧ next = p.toNat) ∧
      exec (.pageRead p) s = .next { s with respOut := s.respOut ++ [⟨.ok, .page l next⟩] }

/-! ## The mutating commands, every frame answered Ok -/

/-- R131, R130: SET_PIXEL writes the one pixel it names, whatever the transport answers; every other pixel, and every byte
but the pixel's, is as before; with every frame answered Ok, the 74 frames of the new surface are sent and Ok is
returned. -/
def Obligations.SetPixelWritesOnePixelAndFlushes : Prop :=
  ∀ (s : State) (m : Memory) (x y : Byte) (v : Bool), s.ready m → x.toNat < 128 → y.toNat < 64 →
    ∃ m', Memory.wf m' = true ∧
      (∀ x' y', x' < 128 → y' < 64 →
        pixRead m' x' y' = if x' = x.toNat ∧ y' = y.toNat then v else pixRead m x' y') ∧
      (∀ a, a ≠ pixelByte x.toNat y.toNat → Memory.read m' a = Memory.read m a) ∧
      (∃ t, exec (.setPixel x y v) s = .next t ∧ t.fb = some m' ∧ t.lc = s.lc) ∧
      ∀ rest, s.answersOk 74 rest → exec (.setPixel x y v) s = .next { s with
        fb := some m', busIn := rest, busOut := s.busOut ++ flushFrames s.params m',
        respOut := s.respOut ++ [⟨.ok, .none⟩] }

/-- R142, R140, R141: RAW_WRITE with `off < 1024` writes the payload bytes that fit, `FB[off + j] <- pl[j]`, and no other
byte, whatever the transport answers, for every length; with every frame answered Ok, it emits Truncated only if some
bytes did not fit, flushes and answers the count. -/
def Obligations.RawWriteWritesTheBytesThatFitAndFlushes : Prop :=
  ∀ (s : State) (m : Memory) (off : Half) (pl : List Byte) (n : Nat), s.ready m → off.toNat < 1024 →
    n = min pl.length (1024 - off.toNat) →
    ∃ m', Memory.wf m' = true ∧ off.toNat + n ≤ 1024 ∧
      (∀ j, j < n → some (Memory.read m' (off.toNat + j)) = pl[j]?) ∧
      (∀ a, ¬(off.toNat ≤ a ∧ a < off.toNat + n) → Memory.read m' a = Memory.read m a) ∧
      (∃ t, exec (.rawWrite off pl) s = .next t ∧ t.fb = some m' ∧ t.lc = s.lc) ∧
      ∀ rest, s.answersOk 74 rest → exec (.rawWrite off pl) s = .next { s with
        fb := some m', busIn := rest, busOut := s.busOut ++ flushFrames s.params m',
        diagOut := s.diagOut ++ (if n < pl.length then [.truncated off.toNat pl.length n] else []),
        respOut := s.respOut ++ [⟨.ok, .count n⟩] }

/-- R170, R171: FILL_RECT paints the pixels of the rectangle that lie on the surface, and no other pixel or byte, whatever
the transport answers, for every rectangle; with every frame answered Ok, it emits Clipped only if a requested pixel
does not lie there, flushes and returns Ok. -/
def Obligations.FillRectPaintsTheClippedRectangleAndFlushes : Prop :=
  ∀ (s : State) (m : Memory) (x y w h : Byte) (c : Bool) (x0 x1 y0 y1 : Nat), s.ready m →
    x0 = min x.toNat 128 → x1 = min (x.toNat + w.toNat) 128 →
    y0 = min y.toNat 64 → y1 = min (y.toNat + h.toNat) 64 →
    ∃ m', Memory.wf m' = true ∧
      (∀ x' y', x' < 128 → y' < 64 →
        pixRead m' x' y' = if (x0 ≤ x' ∧ x' < x1) ∧ (y0 ≤ y' ∧ y' < y1) then c else pixRead m x' y') ∧
      (∀ a, (∀ x' y', x0 ≤ x' → x' < x1 → y0 ≤ y' → y' < y1 → pixelByte x' y' ≠ a) →
        Memory.read m' a = Memory.read m a) ∧
      (∃ t, exec (.fillRect x y w h c) s = .next t ∧ t.fb = some m' ∧ t.lc = s.lc) ∧
      ∀ rest, s.answersOk 74 rest → exec (.fillRect x y w h c) s = .next { s with
        fb := some m', busIn := rest, busOut := s.busOut ++ flushFrames s.params m',
        diagOut := s.diagOut ++ (if (x1 - x0) * (y1 - y0) < w.toNat * h.toNat then
          [.clipped x.toNat y.toNat w.toNat h.toNat x0 y0 (x1 - x0) (y1 - y0)] else []),
        respOut := s.respOut ++ [⟨.ok, .none⟩] }

/-- R172: filling a rectangle that lies inside the surface with on, on a blank surface, turns on exactly `w * h`
pixels. -/
def Obligations.FillRectOnABlankSurfaceTurnsOnExactlyItsArea : Prop :=
  ∀ (s t : State) (x y w h : Byte) (m' : Memory), s.ready Memory.zeroed →
    x.toNat + w.toNat ≤ 128 → y.toNat + h.toNat ≤ 64 →
    exec (.fillRect x y w h true) s = .next t → t.fb = some m' → onPixels m' = w.toNat * h.toNat

/-- R181, R180: COPY_AREA with both blocks inside the surface gives each pixel of the destination the value the source
pixel had before the command, overlapping or not, and leaves every other pixel and byte as it was, whatever the
transport answers; with every frame answered Ok, it flushes and returns Ok. -/
def Obligations.CopyAreaCopiesThePreCopySourceAndFlushes : Prop :=
  ∀ (s : State) (m : Memory) (sx sy dx dy w h : Byte), s.ready m →
    sx.toNat + w.toNat ≤ 128 → sy.toNat + h.toNat ≤ 64 → dx.toNat + w.toNat ≤ 128 → dy.toNat + h.toNat ≤ 64 →
    ∃ m', Memory.wf m' = true ∧
      (∀ i j, i < w.toNat → j < h.toNat →
        pixRead m' (dx.toNat + i) (dy.toNat + j) = pixRead m (sx.toNat + i) (sy.toNat + j)) ∧
      (∀ x' y', x' < 128 → y' < 64 →
        ¬((dx.toNat ≤ x' ∧ x' < dx.toNat + w.toNat) ∧ (dy.toNat ≤ y' ∧ y' < dy.toNat + h.toNat)) →
        pixRead m' x' y' = pixRead m x' y') ∧
      (∀ a, (∀ i j, i < w.toNat → j < h.toNat → pixelByte (dx.toNat + i) (dy.toNat + j) ≠ a) →
        Memory.read m' a = Memory.read m a) ∧
      (∃ t, exec (.copyArea sx sy dx dy w h) s = .next t ∧ t.fb = some m' ∧ t.lc = s.lc) ∧
      ∀ rest, s.answersOk 74 rest → exec (.copyArea sx sy dx dy w h) s = .next { s with
        fb := some m', busIn := rest, busOut := s.busOut ++ flushFrames s.params m',
        respOut := s.respOut ++ [⟨.ok, .none⟩] }

/-- R220: FLUSH sends the 74 frames of the surface as it is and changes nothing. -/
def Obligations.FlushSendsTheSurfaceAndChangesNothing : Prop :=
  ∀ (s : State) (m : Memory) (rest : List Answer), s.ready m → s.answersOk 74 rest →
    exec .flush s = .next { s with
      busIn := rest, busOut := s.busOut ++ flushFrames s.params m, respOut := s.respOut ++ [⟨.ok, .none⟩] }

/-- R152: what RAW_WRITE put at offset 0, at most 1024 bytes, comes back at the front of the records that PAGE_READ
0 to 7 answer, whatever the transport answered the write's frames. -/
def Obligations.RawWriteThenPageReadsReturnTheBytes : Prop :=
  ∀ (s : State) (m : Memory) (b : List Byte), s.ready m → b.length ≤ 1024 →
    ∃ (t : State) (page : Nat → List Byte), exec (.rawWrite 0 b) s = .next t ∧
      (∀ (p : Nat) (u : State), p < 8 → u.fb = t.fb → u.lc = t.lc →
        ∃ v, exec (.pageRead (BitVec.ofNat 8 p)) u = .next v ∧ v.fb = u.fb ∧ v.lc = u.lc ∧
          v.respOut = u.respOut ++ [⟨.ok, .page (page p) (p + 1)⟩]) ∧
      b <+: (List.range 8).flatMap page

/-! ## The frames of a flush, and frames that fail -/

/-- R204, R205: the 74 frames of a flush, frame by frame. -/
def Obligations.FlushFramesAreTheSequenceOfTheSpec : Prop :=
  ∀ (ps : Params) (m : Memory),
    (flushFrames ps m).length = 74 ∧ (flushFrames ps m)[0]? = some ps.colStart ∧
    (flushFrames ps m)[1]? = some ps.colEnd ∧
    ∀ q, q < 72 → (flushFrames ps m)[q + 2]? = some (
      if q % 9 = 0 then [ps.ctrlCmd, ps.pageBase + BitVec.ofNat 8 (q / 9)]
      else ps.ctrlData :: (List.range 16).map fun j => Memory.read m (q / 9 * 128 + 16 * (q % 9 - 1) + j))

/-- R214: the payloads of the data frames, told from the command frames by their discriminator, are the whole surface in
order; and those of the 8 data frames after a page-select frame are that page. -/
def Obligations.DataFramesCarryTheWholeSurface : Prop :=
  ∀ (ps : Params) (m : Memory), ps.wf = true →
    ((flushFrames ps m).filter fun f => f.head? == some ps.ctrlData).flatMap (List.drop 1) = memRead m 0 1024 ∧
    ∀ p, p < 8 → (((flushFrames ps m).drop (3 + 9 * p)).take 8).flatMap (List.drop 1) = memRead m (128 * p) 128

/-- R206, R210, R212, R97: in FLUSH and the mutating commands, when frame `k` is answered Err, the frames up to `k` have been
sent and no more, TxFail names it, the code is TransportError with the data of Ok, and the surface and the other
events are those of the run in which every frame is answered Ok. -/
def Obligations.FailedFlushStopsAndKeepsTheMutation : Prop :=
  ∀ (i : Instr) (s : State) (m : Memory) (k : Nat) (rest : List Answer), s.ready m → flushes i = true →
    operandsOk i = true → k < 74 → s.answersErrAt k rest →
    ∃ (m' : Memory) (data : RespData) (evs : List Diag) (f : Frame),
      exec i { s with busIn := List.replicate 74 .ok } = .next { s with
        fb := some m', busIn := [], busOut := s.busOut ++ flushFrames s.params m',
        diagOut := s.diagOut ++ evs, respOut := s.respOut ++ [⟨.ok, data⟩] } ∧
      (flushFrames s.params m')[k]? = some f ∧
      exec i s = .next { s with
        fb := some m', busIn := rest, busOut := s.busOut ++ (flushFrames s.params m').take (k + 1),
        diagOut := s.diagOut ++ evs ++ [.txFail k f], respOut := s.respOut ++ [⟨.transportError, data⟩] }

/-- R208, R209: no pipelining and no retry: a command that ended used one answer for each frame it presented; one that
waits has presented exactly one frame more than it had answers, the one it waits for; and no frame is presented after
one that is answered Err, the failed frame again or another. -/
def Obligations.EachFrameIsAnsweredBeforeTheNext : Prop :=
  ∀ (i : Instr) (s t : State), exec i s = .next t →
    ∃ fs, t.busOut = s.busOut ++ fs ∧
      (t.phase = .idle → s.busIn.length = t.busIn.length + fs.length) ∧
      (∀ k, s.busIn[k]? = some .err → fs.length ≤ k + 1) ∧
      ∀ job, t.phase = .bus job → t.busIn = [] ∧ fs.length = s.busIn.length + 1 ∧ fs.getLast? = some job.frame

/-! ## Lifecycle -/

/-- R240, R243, R244: INIT of a Detached instance, every frame answered Ok: the power-on frames, then the flush of a zeroed
surface; Active, every byte 0x00, Ok. -/
def Obligations.InitPowersOnAndCreatesTheZeroedSurface : Prop :=
  ∀ (s : State) (rest : List Answer), s.phase = .idle → s.lc = .detached →
    s.answersOk (s.params.chargePump.length + 75) rest →
    ∃ m, (∀ a, Memory.read m a = 0#8) ∧
      exec .init s = .next { s with
        lc := .active, fb := some m, busIn := rest,
        busOut := s.busOut ++ (s.params.chargePump ++ [s.params.displayOn] ++ flushFrames s.params m),
        respOut := s.respOut ++ [⟨.ok, .none⟩] }

/-- R242, R287: INIT with any one of its frames answered Err: DeviceInitFailed, Detached and without a surface as before,
no frame after the failed one, TxFail names it. -/
def Obligations.InitFailsCleanlyAtAnyFrame : Prop :=
  ∀ (s : State) (k : Nat) (f : Frame) (rest : List Answer), s.phase = .idle → s.lc = .detached → s.fb = none →
    (s.params.chargePump ++ [s.params.displayOn] ++ flushFrames s.params Memory.zeroed)[k]? = some f →
    s.answersErrAt k rest →
      exec .init s = .next { s with
        busIn := rest,
        busOut := s.busOut ++
          (s.params.chargePump ++ [s.params.displayOn] ++ flushFrames s.params Memory.zeroed).take (k + 1),
        diagOut := s.diagOut ++ [.txFail k f], respOut := s.respOut ++ [⟨.deviceInitFailed, .none⟩] }

/-- R245: INIT of an attached instance returns IllegalCommand and has no effect. -/
def Obligations.InitWhileAttachedIsIllegal : Prop :=
  ∀ (s : State), s.phase = .idle → s.attached →
    exec .init s = .next { s with respOut := s.respOut ++ [⟨.illegalCommand, .none⟩] }

/-- R250: SHUTDOWN sends display-off, and whatever is answered releases the surface, leaves the instance Detached and
returns Ok; an Err is only logged. -/
def Obligations.ShutdownAlwaysReleasesAndAnswersOk : Prop :=
  ∀ (s : State) (a : Answer) (rest : List Answer), s.phase = .idle → s.attached → s.busIn = a :: rest →
    exec .shutdown s = .next { s with
      lc := .detached, fb := none, busIn := rest, busOut := s.busOut ++ [s.params.displayOff],
      diagOut := s.diagOut ++ (if a = .err then [.txFail 0 s.params.displayOff] else []),
      respOut := s.respOut ++ [⟨.ok, .none⟩] }

/-- R256, R260: BLANK 1 sends display-off and leads to Blanked, BLANK 0 sends display-on and leads to Active, from either
state; an Err leaves LC as it was and returns TransportError; every other mode is UnsupportedMode with no effect. The
surface is never touched. -/
def Obligations.BlankChangesLcOnlyWhenItsFrameIsAnsweredOk : Prop :=
  ∀ (s : State) (mode : Byte), s.phase = .idle → s.attached →
    (∀ (f : Frame) (l : Lifecycle) (rest : List Answer),
      (mode.toNat = 1 ∧ f = s.params.displayOff ∧ l = .blanked) ∨
        (mode.toNat = 0 ∧ f = s.params.displayOn ∧ l = .active) →
      (s.busIn = .ok :: rest → exec (.blank mode) s = .next { s with
        lc := l, busIn := rest, busOut := s.busOut ++ [f], respOut := s.respOut ++ [⟨.ok, .none⟩] }) ∧
      (s.busIn = .err :: rest → exec (.blank mode) s = .next { s with
        busIn := rest, busOut := s.busOut ++ [f], diagOut := s.diagOut ++ [.txFail 0 f],
        respOut := s.respOut ++ [⟨.transportError, .none⟩] })) ∧
    (2 ≤ mode.toNat → exec (.blank mode) s = .next { s with
      respOut := s.respOut ++ [⟨.unsupportedMode, .none⟩] })

/-! ## Errors -/

/-- R284: while Detached every command but INIT and NOP returns UnknownDevice and has no effect, whatever its operands. -/
def Obligations.DetachedInstanceAnswersUnknownDevice : Prop :=
  ∀ (i : Instr) (s : State), s.phase = .idle → s.lc = .detached → acceptedDetached i = false →
    exec i s = .next { s with respOut := s.respOut ++ [⟨.unknownDevice, .none⟩] }

/-- R282, R286: an attached instance turns a command away when its operands are out of range, before any effect, with
OutOfBounds, or UnsupportedMode for BLANK; no command whose operands are in range returns either code. -/
def Obligations.OperandsOutOfRangeAreTurnedAway : Prop :=
  ∀ (i : Instr) (s : State) (m : Memory), s.ready m →
    (operandsOk i = false → exec i s = .next { s with respOut := s.respOut ++ [⟨operandCode i, .none⟩] }) ∧
    (operandsOk i = true → ∀ t r, exec i s = .next t → t.respOut = s.respOut ++ [r] →
      r.code ≠ .outOfBounds ∧ r.code ≠ .unsupportedMode)

/-- The model's own stops (log 9), in the states that R30 and R33 exclude: while LC is Attaching or Detaching, exec of every
command but NOP and INIT stops by name; and on an attached instance without a surface, so does exec of every command
that reads or writes the surface, that is, all but NOP, INIT, SHUTDOWN and BLANK. -/
def Obligations.StatesThatTheSpecExcludesStopByName : Prop :=
  ∀ (i : Instr) (s : State), acceptedDetached i = false →
    ((s.lc = .attaching ∨ s.lc = .detaching) → exec i s = .fault .commandInProgress) ∧
    (s.attached → s.fb = none → i ≠ .shutdown → (∀ mode, i ≠ .blank mode) → exec i s = .fault .surfaceAbsent)

/-- R290: no partial state. A command that returns OutOfBounds, UnknownDevice, UnsupportedMode or IllegalCommand has changed
nothing; one that returns DeviceInitFailed leaves LC and FB as it found them; one that returns TransportError
leaves LC as it was, and is BLANK with FB as it was, or has the FB of the run with every answer Ok. -/
def Obligations.NoCommandLeavesPartialState : Prop :=
  ∀ (i : Instr) (s t : State) (r : Response), s.phase = .idle → s.resting → exec i s = .next t →
    t.respOut = s.respOut ++ [r] →
    (r.code ∈ rejectCodes → t = { s with respOut := s.respOut ++ [r] }) ∧
    (r.code = .deviceInitFailed → t.lc = s.lc ∧ t.fb = s.fb) ∧
    (r.code = .transportError → t.lc = s.lc ∧
      (((∃ mode, i = .blank mode) ∧ t.fb = s.fb) ∨
        ∃ u, exec i { s with busIn := List.replicate 74 .ok } = .next u ∧ u.fb = t.fb ∧
          u.respOut = s.respOut ++ [⟨.ok, r.data⟩]))

/-- R37, R289: a command ends with exactly one response, whose code the table of R289 allows it, or waits with none. -/
def Obligations.EachCommandEndsWithOneAllowedResponse : Prop :=
  ∀ (i : Instr) (s t : State), exec i s = .next t →
    (t.phase = .idle ∧ ∃ r, t.respOut = s.respOut ++ [r] ∧ r.code ∈ mayReturn i) ∨
      ((∃ job, t.phase = .bus job) ∧ t.respOut = s.respOut)

/-- R301: the events of a command are at most one Clipped or Truncated, by the command that may emit it, and then at most
one TxFail. -/
def Obligations.EventsComeInOrderAndAtMostOneFailure : Prop :=
  ∀ (i : Instr) (s t : State), exec i s = .next t →
    ∃ pre fail, t.diagOut = s.diagOut ++ (pre ++ fail) ∧
      (pre = [] ∨ (∃ x y w h c d, i = .fillRect x y w h c ∧ pre = [d] ∧
          ∃ a b c' d', d = .clipped x.toNat y.toNat w.toNat h.toNat a b c' d') ∨
        ∃ off pl n, i = .rawWrite off pl ∧ pre = [.truncated off.toNat pl.length n] ∧ n < pl.length) ∧
      (fail = [] ∨ ∃ k f, fail = [.txFail k f])

/-- R34: over a whole command LC changes only as the table of R34 says. -/
def Obligations.LifecycleChangesOnlyAsTheTableSays : Prop :=
  ∀ (i : Instr) (s t : State), s.phase = .idle → s.lc = .detached ∨ s.attached → exec i s = .next t →
    t.phase = .idle → lcChange s.lc i t.lc = true

/-- R71: SET_PIXEL, FILL_RECT, RAW_WRITE, and COPY_AREA whose two blocks do not overlap or are the same, are idempotent in
the surface: run again on the surface they left, they leave it as it is. (R71 says so of COPY_AREA with other overlapping
blocks too, against R180 and R181: log 12.) -/
def Obligations.WritesRepeatedLeaveTheSurfaceAsItIs : Prop :=
  ∀ (i : Instr) (s t u v : State) (m m' : Memory), (∃ x y b, i = .setPixel x y b) ∨
      (∃ x y w h c, i = .fillRect x y w h c) ∨ (∃ off pl, i = .rawWrite off pl) ∨
      (∃ sx sy dx dy w h, i = .copyArea sx sy dx dy w h ∧ (sx = dx ∧ sy = dy ∨
        sx.toNat + w.toNat ≤ dx.toNat ∨ dx.toNat + w.toNat ≤ sx.toNat ∨
        sy.toNat + h.toNat ≤ dy.toNat ∨ dy.toNat + h.toNat ≤ sy.toNat)) →
    s.ready m → exec i s = .next t → t.fb = some m' → u.attached → u.fb = some m' → exec i u = .next v →
    v.fb = some m'

/-! ## The whole machine -/

/-- R65: every bit of every surface byte is exactly one pixel: the map of R61 is a bijection, with the inverse of R65. -/
def Obligations.PixelMapIsABijection : Prop :=
  (∀ i k, i < 1024 → k < 8 → i % 128 < 128 ∧ 8 * (i / 128) + k < 64 ∧
    pixelByte (i % 128) (8 * (i / 128) + k) = i ∧ pixelBit (8 * (i / 128) + k) = k) ∧
  (∀ x y, x < 128 → y < 64 → pixelByte x y < 1024 ∧ pixelBit y < 8 ∧ pixelByte x y % 128 = x ∧
    8 * (pixelByte x y / 128) + pixelBit y = y)

/-- R98, R280: the values of the eight result codes; and the byte form of a response: the code's value first, a count or a
length as 2 bytes little-endian, then the bytes. -/
def Obligations.ResponseBytesCarryTheResponse : Prop :=
  (ResultCode.ok.value = 0 ∧ ResultCode.outOfBounds.value = 1 ∧ ResultCode.transportError.value = 2 ∧
    ResultCode.unknownDevice.value = 3 ∧ ResultCode.unsupportedMode.value = 4 ∧
    ResultCode.deviceInitFailed.value = 5 ∧ ResultCode.capacityExceeded.value = 6 ∧
    ResultCode.illegalCommand.value = 7) ∧
  ∀ (c : ResultCode) (n p : Nat) (b : Bool) (l : List Byte), n ≤ 1024 → l.length ≤ 1024 → p < 256 →
    Response.toBytes ⟨c, .none⟩ = [c.value] ∧
    Response.toBytes ⟨c, .bit b⟩ = [c.value, if b then 1 else 0] ∧
    (∃ lo hi : Byte, Response.toBytes ⟨c, .count n⟩ = [c.value, lo, hi] ∧ lo.toNat + 256 * hi.toNat = n) ∧
    (∃ lo hi : Byte, Response.toBytes ⟨c, .bytes l⟩ = [c.value, lo, hi] ++ l ∧ lo.toNat + 256 * hi.toNat = l.length) ∧
    (∃ nx lo hi : Byte, Response.toBytes ⟨c, .page l p⟩ = [c.value, nx, lo, hi] ++ l ∧ nx.toNat = p ∧
      lo.toNat + 256 * hi.toNat = l.length)

/-- R41: nothing of a command's outcome persists into the next one: with any earlier output on the ports, a step does the
same and puts out the same. -/
def Obligations.EarlierOutputNeverMatters : Prop :=
  ∀ (s : State) (frames : List Frame) (resps : List Response) (diags : List Diag),
    step (s.afterOutputs frames resps diags) = outcomeAfterOutputs frames resps diags (step s)

/-- R42: no step changes the protocol parameters. -/
def Obligations.ParametersNeverChange : Prop :=
  ∀ (s t : State), step s = .next t → t.params = s.params

/-- What a step has put out stays: each output port only grows. R322 says so of the frames sent; that a reset keeps the
record of the responses and events too is the model's choice (log 8). -/
def Obligations.OutputIsNeverTakenBack : Prop :=
  ∀ (s t : State), step s = .next t →
    s.busOut <+: t.busOut ∧ s.respOut <+: t.respOut ∧ s.diagOut <+: t.diagOut

/-- The invariant holds after reset. -/
def Obligations.ResetStateMeetsTheInvariant : Prop := State.reset.Inv

/-- Every step keeps the invariant: the surface stays canonical and 1024 bytes (R46), LC, FB and the phase stay in
agreement (R30, R33, R43), every frame presented has 1 to 17 bytes (R200), every response is one of R96 and never
CapacityExceeded (R285). -/
def Obligations.EveryStepKeepsTheInvariant : Prop :=
  ∀ (s t : State), s.Inv → step s = .next t → t.Inv

/-- No state with the invariant stops: the model's faults and refusals are never met in a run. -/
def Obligations.NoStepFromTheInvariantStops : Prop :=
  ∀ (s : State), s.Inv → ∃ t, step s = .next t
end

