-- ==== Sys2Proof/Laws/Memory.lean ====
section
/-! SUPPORT. The laws of the surface: read after write, the canonical form kept by every operation and equal reads
meaning equal surfaces, byte ranges, single pixels, and painted blocks. -/

namespace Sys2Proof.Machine

/-! ## The canonical form -/

theorem Memory.wfFrom_mono {lo lo' : Nat} {m : Memory} (h : Memory.wfFrom lo m = true) (hl : lo' ≤ lo) :
    Memory.wfFrom lo' m = true := by
  cases m with
  | nil => rfl
  | cons c m =>
    simp only [Memory.wfFrom, Bool.and_eq_true, decide_eq_true_eq] at h ⊢
    exact ⟨⟨⟨by omega, h.1.1.2⟩, h.1.2⟩, h.2⟩

/-- Below the lower bound of a canonical list nothing is listed. -/
theorem Memory.read_below {lo : Nat} {m : Memory} (h : Memory.wfFrom lo m = true) {i : Nat} (hi : i < lo) :
    Memory.read m i = 0#8 := by
  induction m generalizing lo with
  | nil => rfl
  | cons c m ih =>
    simp only [Memory.wfFrom, Bool.and_eq_true, decide_eq_true_eq] at h
    have hne : i ≠ c.1 := by omega
    simp only [Memory.read, hne, if_false]
    exact ih h.2 (by omega)

theorem Memory.read_zeroed (i : Nat) : Memory.read Memory.zeroed i = 0#8 := rfl

theorem Memory.wf_zeroed : Memory.wf Memory.zeroed = true := rfl

/-- Beyond the surface nothing is listed (R46, R72). -/
theorem Memory.read_beyond {lo : Nat} {m : Memory} (h : Memory.wfFrom lo m = true) {i : Nat}
    (hi : Config.bufLen ≤ i) : Memory.read m i = 0#8 := by
  induction m generalizing lo with
  | nil => rfl
  | cons c m ih =>
    simp only [Memory.wfFrom, Bool.and_eq_true, decide_eq_true_eq] at h
    have hne : i ≠ c.1 := by omega
    simp only [Memory.read, hne, if_false]
    exact ih h.2

theorem Memory.wfFrom_write {lo : Nat} {m : Memory} (h : Memory.wfFrom lo m = true) {i : Nat} (hlo : lo ≤ i)
    (hi : i < Config.bufLen) (v : Byte) : Memory.wfFrom lo (Memory.write m i v) = true := by
  induction m generalizing lo with
  | nil => by_cases hv : v = 0 <;> simp_all [Memory.write, Memory.wfFrom]
  | cons c m ih =>
    obtain ⟨a, u⟩ := c
    simp only [Memory.wfFrom, Bool.and_eq_true, decide_eq_true_eq, bne_iff_ne, ne_eq] at h
    obtain ⟨⟨⟨h1, h2⟩, h3⟩, h4⟩ := h
    simp only [Memory.write]
    split_ifs with c1 c2 c3 c4 <;>
      try simp only [Memory.wfFrom, Bool.and_eq_true, decide_eq_true_eq, bne_iff_ne, ne_eq]
    · exact ⟨⟨⟨h1, h2⟩, h3⟩, h4⟩
    · exact ⟨⟨⟨hlo, hi⟩, c2⟩, ⟨⟨by omega, h2⟩, h3⟩, h4⟩
    · exact Memory.wfFrom_mono h4 (by omega)
    · exact ⟨⟨⟨h1, h2⟩, c4⟩, h4⟩
    · exact ⟨⟨⟨h1, h2⟩, h3⟩, ih h4 (by omega)⟩

/-- A write inside the surface keeps the canonical form. -/
theorem Memory.wf_write {m : Memory} (h : Memory.wf m = true) {i : Nat} (hi : i < Config.bufLen) (v : Byte) :
    Memory.wf (Memory.write m i v) = true := Memory.wfFrom_write h (Nat.zero_le i) hi v

theorem Memory.readFrom_write {lo : Nat} {m : Memory} (h : Memory.wfFrom lo m = true) (i : Nat) (v : Byte) (j : Nat) :
    Memory.read (Memory.write m i v) j = if j = i then v else Memory.read m j := by
  induction m generalizing lo with
  | nil => by_cases hv : v = 0#8 <;> by_cases hj : j = i <;> simp [Memory.write, Memory.read, hv, hj]
  | cons c m ih =>
    obtain ⟨a, u⟩ := c
    simp only [Memory.wfFrom, Bool.and_eq_true, decide_eq_true_eq, bne_iff_ne, ne_eq] at h
    obtain ⟨⟨⟨h1, h2⟩, h3⟩, h4⟩ := h
    have hb := fun k (hk : k < a + 1) => Memory.read_below h4 hk
    simp only [Memory.write]
    by_cases hj : j = i
    · subst hj
      rw [if_pos rfl]
      split_ifs with c1 c2 c2 c3
      · simp [Memory.read, show j ≠ a by omega, hb j (by omega), c2]
      · simp [Memory.read]
      · rw [c3, hb j (by omega)]
      · simp [Memory.read, c2]
      · simpa [Memory.read, c2] using ih h4
    · rw [if_neg hj]
      split_ifs with c1 c2 c2 c3
      · rfl
      · simp [Memory.read, hj]
      · simp [Memory.read, show j ≠ a by omega]
      · simp [Memory.read, show j ≠ a by omega]
      · simp [Memory.read, ih h4, hj]

/-- Read after write (R18, R74): the written value at the written offset, every other offset as before. -/
theorem Memory.read_write {m : Memory} (h : Memory.wf m = true) (i : Nat) (v : Byte) (j : Nat) :
    Memory.read (Memory.write m i v) j = if j = i then v else Memory.read m j := Memory.readFrom_write h i v j

theorem Memory.ext_from {lo : Nat} {m m' : Memory} (h : Memory.wfFrom lo m = true) (h' : Memory.wfFrom lo m' = true)
    (he : ∀ i, Memory.read m i = Memory.read m' i) : m = m' := by
  induction m generalizing lo m' with
  | nil =>
    cases m' with
    | nil => rfl
    | cons c m' =>
      simp only [Memory.wfFrom, Bool.and_eq_true, decide_eq_true_eq, bne_iff_ne, ne_eq] at h'
      have := he c.1
      simp only [Memory.read, if_true] at this
      exact absurd this.symm h'.1.2
  | cons c m ih =>
    cases m' with
    | nil =>
      simp only [Memory.wfFrom, Bool.and_eq_true, decide_eq_true_eq, bne_iff_ne, ne_eq] at h
      have := he c.1
      simp only [Memory.read, if_true] at this
      exact absurd this h.1.2
    | cons c' m' =>
      obtain ⟨a, v⟩ := c
      obtain ⟨a', v'⟩ := c'
      simp only [Memory.wfFrom, Bool.and_eq_true, decide_eq_true_eq, bne_iff_ne, ne_eq] at h h'
      have ha : a = a' := by
        rcases Nat.lt_trichotomy a a' with hlt | heq | hgt
        · have := he a
          simp only [Memory.read, if_true, show a ≠ a' by omega, if_false] at this
          rw [Memory.read_below h'.2 (by omega)] at this
          exact absurd this h.1.2
        · exact heq
        · have := he a'
          simp only [Memory.read, if_true, show a' ≠ a by omega, if_false] at this
          rw [Memory.read_below h.2 (by omega)] at this
          exact absurd this.symm h'.1.2
      subst ha
      have hv : v = v' := by simpa [Memory.read] using he a
      subst hv
      congr 1
      refine ih h.2 h'.2 fun i => ?_
      have := he i
      by_cases hi : i = a
      · subst hi
        rw [Memory.read_below h.2 (by omega), Memory.read_below h'.2 (by omega)]
      · simpa [Memory.read, hi] using this

/-- Canonical surfaces that read alike are the same data. -/
theorem Memory.ext {m m' : Memory} (h : Memory.wf m = true) (h' : Memory.wf m' = true)
    (he : ∀ i, Memory.read m i = Memory.read m' i) : m = m' := Memory.ext_from h h' he

/-! ## Byte ranges -/

@[simp] theorem memRead_length (m : Memory) (off n : Nat) : (memRead m off n).length = n := by simp [memRead]

theorem memRead_getElem? (m : Memory) (off n j : Nat) :
    (memRead m off n)[j]? = if j < n then some (Memory.read m (off + j)) else none := by
  by_cases h : j < n <;> simp [memRead, h]

@[simp] theorem memRead_getElem (m : Memory) (off n j : Nat) (h : j < (memRead m off n).length) :
    (memRead m off n)[j] = Memory.read m (off + j) := by simp [memRead]

theorem memRead_append (m : Memory) (off n k : Nat) : memRead m off (n + k) = memRead m off n ++ memRead m (off + n) k := by
  simp [memRead, List.range_add, List.map_append, Function.comp_def, Nat.add_assoc]

/-- MemWrite inside the surface keeps the canonical form (R142). -/
theorem Memory.wf_memWrite {bs : List Byte} {m : Memory} {off : Nat} (h : Memory.wf m = true)
    (hin : off + bs.length ≤ Config.bufLen) : Memory.wf (memWrite m off bs) = true := by
  induction bs generalizing m off with
  | nil => exact h
  | cons b bs ih =>
    simp only [List.length_cons] at hin
    exact ih (Memory.wf_write h (by omega) b) (by omega)

/-- What a byte of the surface is after MemWrite: the byte given for it, or what it was (R18, R110). -/
theorem Memory.read_memWrite {bs : List Byte} {m : Memory} {off : Nat} (h : Memory.wf m = true)
    (hin : off + bs.length ≤ Config.bufLen) (i : Nat) :
    Memory.read (memWrite m off bs) i =
      if off ≤ i ∧ i < off + bs.length then bs.getD (i - off) 0#8 else Memory.read m i := by
  induction bs generalizing m off with
  | nil =>
    have : ¬(off ≤ i ∧ i < off) := by omega
    simp [memWrite, this]
  | cons b bs ih =>
    simp only [List.length_cons] at hin
    have h1 := ih (Memory.wf_write h (show off < Config.bufLen by omega) b) (off := off + 1) (by omega)
    simp only [memWrite, h1, Memory.read_write h, List.length_cons]
    by_cases c : i = off
    · subst c
      simp [show ¬(i + 1 ≤ i) by omega]
    · by_cases c1 : off ≤ i ∧ i < off + (bs.length + 1)
      · have c2 : off + 1 ≤ i ∧ i < off + 1 + bs.length := by omega
        have : i - off = (i - (off + 1)) + 1 := by omega
        rw [if_pos c2, if_pos c1, this, List.getD_cons_succ]
      · have c2 : ¬(off + 1 ≤ i ∧ i < off + 1 + bs.length) := by omega
        rw [if_neg c2, if_neg c1, if_neg c]

/-! ## Pixels -/

theorem pixelByte_lt {x y : Nat} (hx : x < Config.width) (hy : y < Config.height) : pixelByte x y < Config.bufLen := by
  simp only [Config.width, Config.height, Config.bufLen, pixelByte] at *; omega

theorem pixelBit_lt (y : Nat) : pixelBit y < 8 := Nat.mod_lt _ (by omega)

/-- The pixel map is injective (R65): a byte and a bit determine the pixel. -/
theorem pixel_injective {x y x' y' : Nat} (hx : x < Config.width) (hx' : x' < Config.width)
    (hb : pixelByte x y = pixelByte x' y') (hk : pixelBit y = pixelBit y') : x = x' ∧ y = y' := by
  simp only [Config.width, pixelByte, pixelBit] at *; omega

/-- One bit of a byte replaced, the other seven as they were (R63). -/
theorem setBit_getLsbD (v : Byte) {k : Nat} (hk : k < 8) (b : Bool) (j : Nat) (hj : j < 8) :
    (setBit v k b).getLsbD j = if j = k then b else v.getLsbD j := by
  have key : ∀ k < 8, ∀ j < 8, ∀ b : Bool, ((if b then 1#8 else 0#8) <<< k).getLsbD j = (decide (j = k) && b) ∧
      (~~~(1#8 <<< k)).getLsbD j = decide (j ≠ k) := by decide
  obtain ⟨h1, h2⟩ := key k hk j hj b
  simp only [setBit, BitVec.getLsbD_or, BitVec.getLsbD_and, h1, h2]
  by_cases c : j = k <;> simp [c]

/-- A byte of which every pixel is as before is as before. -/
theorem Memory.read_eq_of_pixRead {m m' : Memory} (h : Memory.wf m = true) (h' : Memory.wf m' = true) (a : Nat)
    (hp : ∀ x y, x < Config.width → y < Config.height → pixelByte x y = a → pixRead m' x y = pixRead m x y) :
    Memory.read m' a = Memory.read m a := by
  by_cases ha : a < Config.bufLen
  · apply BitVec.eq_of_getLsbD_eq
    intro k hk
    simp only [Config.width, Config.height, Config.bufLen] at *
    have e : pixelByte (a % 128) (8 * (a / 128) + k) = a := by simp only [pixelByte, Config.width]; omega
    have e2 : pixelBit (8 * (a / 128) + k) = k := by simp only [pixelBit]; omega
    have := hp (a % 128) (8 * (a / 128) + k) (by omega) (by omega) e
    rwa [pixRead, pixRead, e, e2] at this
  · rw [Memory.read_beyond h (Nat.le_of_not_lt ha), Memory.read_beyond h' (Nat.le_of_not_lt ha)]

/-- A pixel write inside the surface keeps the canonical form. -/
theorem Memory.wf_pixWrite {m : Memory} (h : Memory.wf m = true) {x y : Nat} (hx : x < Config.width)
    (hy : y < Config.height) (b : Bool) : Memory.wf (pixWrite m x y b) = true :=
  Memory.wf_write h (pixelByte_lt hx hy) _

theorem Memory.read_pixWrite {m : Memory} (h : Memory.wf m = true) (x y : Nat) (b : Bool) (i : Nat) :
    Memory.read (pixWrite m x y b) i =
      if i = pixelByte x y then setBit (Memory.read m (pixelByte x y)) (pixelBit y) b else Memory.read m i :=
  Memory.read_write h _ _ i

/-- PixWrite changes exactly the pixel it names (R63, R131). -/
theorem pixRead_pixWrite {m : Memory} (h : Memory.wf m = true) {x y x' y' : Nat} (hx : x < Config.width)
    (hx' : x' < Config.width) (b : Bool) :
    pixRead (pixWrite m x y b) x' y' = if x' = x ∧ y' = y then b else pixRead m x' y' := by
  unfold pixRead
  rw [Memory.read_pixWrite h]
  by_cases hb : pixelByte x' y' = pixelByte x y
  · rw [if_pos hb, setBit_getLsbD _ (pixelBit_lt y) _ _ (pixelBit_lt y'), hb]
    by_cases hk : pixelBit y' = pixelBit y
    · have := pixel_injective hx' hx hb hk
      rw [if_pos hk, if_pos this]
    · have : ¬(x' = x ∧ y' = y) := fun c => hk (by rw [c.2])
      rw [if_neg hk, if_neg this]
  · have : ¬(x' = x ∧ y' = y) := fun c => hb (by rw [c.1, c.2])
    rw [if_neg hb, if_neg this]

/-! ## Painted blocks -/

theorem Memory.wf_paintRow {f : Nat → Bool} {m : Memory} (h : Memory.wf m = true) {x0 y n : Nat}
    (hx : x0 + n ≤ Config.width) (hy : y < Config.height) : Memory.wf (paintRow f x0 y n m) = true := by
  induction n with
  | zero => exact h
  | succ n ih => exact Memory.wf_pixWrite (ih (by omega)) (by omega) hy _

theorem pixRead_paintRow {f : Nat → Bool} {m : Memory} (h : Memory.wf m = true) {x0 y n : Nat}
    (hx : x0 + n ≤ Config.width) (hy : y < Config.height) {x' : Nat} (hx' : x' < Config.width) (y' : Nat) :
    pixRead (paintRow f x0 y n m) x' y' =
      if x0 ≤ x' ∧ x' < x0 + n ∧ y' = y then f (x' - x0) else pixRead m x' y' := by
  induction n with
  | zero =>
    have : ¬(x0 ≤ x' ∧ x' < x0 + 0 ∧ y' = y) := by omega
    rw [if_neg this]; rfl
  | succ n ih =>
    rw [paintRow, pixRead_pixWrite (Memory.wf_paintRow h (by omega) hy) (by omega) hx', ih (by omega)]
    by_cases c : x' = x0 + n ∧ y' = y
    · have c1 : x0 ≤ x' ∧ x' < x0 + (n + 1) ∧ y' = y := by omega
      have : x' - x0 = n := by omega
      rw [if_pos c, if_pos c1, this]
    · rw [if_neg c]
      by_cases c1 : x0 ≤ x' ∧ x' < x0 + n ∧ y' = y
      · have c2 : x0 ≤ x' ∧ x' < x0 + (n + 1) ∧ y' = y := by omega
        rw [if_pos c1, if_pos c2]
      · have c2 : ¬(x0 ≤ x' ∧ x' < x0 + (n + 1) ∧ y' = y) := by omega
        rw [if_neg c1, if_neg c2]

/-- A block painted inside the surface keeps the canonical form. -/
theorem Memory.wf_paintBlock {f : Nat → Nat → Bool} {m : Memory} (h : Memory.wf m = true) {x0 y0 w n : Nat}
    (hx : x0 + w ≤ Config.width) (hy : y0 + n ≤ Config.height) : Memory.wf (paintBlock f x0 y0 w n m) = true := by
  induction n with
  | zero => exact h
  | succ n ih => exact Memory.wf_paintRow (ih (by omega)) hx (by omega)

/-- What every pixel is after a block was painted inside the surface: a pixel of the block what was painted for it,
every other pixel what it was (R172, R181). -/
theorem pixRead_paintBlock {f : Nat → Nat → Bool} {m : Memory} (h : Memory.wf m = true) {x0 y0 w n : Nat}
    (hx : x0 + w ≤ Config.width) (hy : y0 + n ≤ Config.height) {x' : Nat} (hx' : x' < Config.width) (y' : Nat) :
    pixRead (paintBlock f x0 y0 w n m) x' y' =
      if (x0 ≤ x' ∧ x' < x0 + w) ∧ (y0 ≤ y' ∧ y' < y0 + n) then f (x' - x0) (y' - y0) else pixRead m x' y' := by
  induction n with
  | zero =>
    have : ¬((x0 ≤ x' ∧ x' < x0 + w) ∧ (y0 ≤ y' ∧ y' < y0 + 0)) := by omega
    rw [if_neg this]; rfl
  | succ n ih =>
    rw [paintBlock, pixRead_paintRow (Memory.wf_paintBlock h hx (by omega)) hx (by omega) hx', ih (by omega)]
    by_cases c : x0 ≤ x' ∧ x' < x0 + w ∧ y' = y0 + n
    · have c1 : (x0 ≤ x' ∧ x' < x0 + w) ∧ (y0 ≤ y' ∧ y' < y0 + (n + 1)) := by omega
      have : y' - y0 = n := by omega
      rw [if_pos c, if_pos c1, this]
    · rw [if_neg c]
      by_cases c1 : (x0 ≤ x' ∧ x' < x0 + w) ∧ (y0 ≤ y' ∧ y' < y0 + n)
      · have c2 : (x0 ≤ x' ∧ x' < x0 + w) ∧ (y0 ≤ y' ∧ y' < y0 + (n + 1)) := by omega
        rw [if_pos c1, if_pos c2]
      · have c2 : ¬((x0 ≤ x' ∧ x' < x0 + w) ∧ (y0 ≤ y' ∧ y' < y0 + (n + 1))) := by omega
        rw [if_neg c1, if_neg c2]

/-- The clipped rectangle lies inside the surface (R142, R172). -/
theorem clipRect_inside (x y w h : Nat) :
    (clipRect x y w h).x + (clipRect x y w h).w ≤ Config.width ∧
      (clipRect x y w h).y + (clipRect x y w h).h ≤ Config.height := by
  simp only [Config.width, Config.height, clipRect]; omega

/-- A clamped length stays inside the surface (R142). -/
theorem clampLen_inside {off len : Nat} (h : off < Config.bufLen) : off + clampLen off len ≤ Config.bufLen := by
  simp only [Config.bufLen, clampLen] at *; omega

end Sys2Proof.Machine
end

