-- ==== Sys2Proof/Laws/State.lean ====
section
/-! SUPPORT. What each named update of State leaves in each field: one lemma per field and update, all by rfl, so that
no later proof unfolds a record update. -/

namespace Sys2Proof.Machine

variable (s : State)

/-! ### State.setLc -/

@[simp] theorem State.setLc_lc (l : Lifecycle) : (State.setLc s l).lc = l := rfl
@[simp] theorem State.setLc_fb (l : Lifecycle) : (State.setLc s l).fb = s.fb := rfl
@[simp] theorem State.setLc_phase (l : Lifecycle) : (State.setLc s l).phase = s.phase := rfl
@[simp] theorem State.setLc_params (l : Lifecycle) : (State.setLc s l).params = s.params := rfl
@[simp] theorem State.setLc_resetIn (l : Lifecycle) : (State.setLc s l).resetIn = s.resetIn := rfl
@[simp] theorem State.setLc_cmdIn (l : Lifecycle) : (State.setLc s l).cmdIn = s.cmdIn := rfl
@[simp] theorem State.setLc_busIn (l : Lifecycle) : (State.setLc s l).busIn = s.busIn := rfl
@[simp] theorem State.setLc_busOut (l : Lifecycle) : (State.setLc s l).busOut = s.busOut := rfl
@[simp] theorem State.setLc_respOut (l : Lifecycle) : (State.setLc s l).respOut = s.respOut := rfl
@[simp] theorem State.setLc_diagOut (l : Lifecycle) : (State.setLc s l).diagOut = s.diagOut := rfl

/-! ### State.setFb -/

@[simp] theorem State.setFb_lc (fb : Option Memory) : (State.setFb s fb).lc = s.lc := rfl
@[simp] theorem State.setFb_fb (fb : Option Memory) : (State.setFb s fb).fb = fb := rfl
@[simp] theorem State.setFb_phase (fb : Option Memory) : (State.setFb s fb).phase = s.phase := rfl
@[simp] theorem State.setFb_params (fb : Option Memory) : (State.setFb s fb).params = s.params := rfl
@[simp] theorem State.setFb_resetIn (fb : Option Memory) : (State.setFb s fb).resetIn = s.resetIn := rfl
@[simp] theorem State.setFb_cmdIn (fb : Option Memory) : (State.setFb s fb).cmdIn = s.cmdIn := rfl
@[simp] theorem State.setFb_busIn (fb : Option Memory) : (State.setFb s fb).busIn = s.busIn := rfl
@[simp] theorem State.setFb_busOut (fb : Option Memory) : (State.setFb s fb).busOut = s.busOut := rfl
@[simp] theorem State.setFb_respOut (fb : Option Memory) : (State.setFb s fb).respOut = s.respOut := rfl
@[simp] theorem State.setFb_diagOut (fb : Option Memory) : (State.setFb s fb).diagOut = s.diagOut := rfl

/-! ### State.setPhase -/

@[simp] theorem State.setPhase_lc (p : Phase) : (State.setPhase s p).lc = s.lc := rfl
@[simp] theorem State.setPhase_fb (p : Phase) : (State.setPhase s p).fb = s.fb := rfl
@[simp] theorem State.setPhase_phase (p : Phase) : (State.setPhase s p).phase = p := rfl
@[simp] theorem State.setPhase_params (p : Phase) : (State.setPhase s p).params = s.params := rfl
@[simp] theorem State.setPhase_resetIn (p : Phase) : (State.setPhase s p).resetIn = s.resetIn := rfl
@[simp] theorem State.setPhase_cmdIn (p : Phase) : (State.setPhase s p).cmdIn = s.cmdIn := rfl
@[simp] theorem State.setPhase_busIn (p : Phase) : (State.setPhase s p).busIn = s.busIn := rfl
@[simp] theorem State.setPhase_busOut (p : Phase) : (State.setPhase s p).busOut = s.busOut := rfl
@[simp] theorem State.setPhase_respOut (p : Phase) : (State.setPhase s p).respOut = s.respOut := rfl
@[simp] theorem State.setPhase_diagOut (p : Phase) : (State.setPhase s p).diagOut = s.diagOut := rfl

/-! ### State.setCmdIn -/

@[simp] theorem State.setCmdIn_lc (bytes : List Byte) : (State.setCmdIn s bytes).lc = s.lc := rfl
@[simp] theorem State.setCmdIn_fb (bytes : List Byte) : (State.setCmdIn s bytes).fb = s.fb := rfl
@[simp] theorem State.setCmdIn_phase (bytes : List Byte) : (State.setCmdIn s bytes).phase = s.phase := rfl
@[simp] theorem State.setCmdIn_params (bytes : List Byte) : (State.setCmdIn s bytes).params = s.params := rfl
@[simp] theorem State.setCmdIn_resetIn (bytes : List Byte) : (State.setCmdIn s bytes).resetIn = s.resetIn := rfl
@[simp] theorem State.setCmdIn_cmdIn (bytes : List Byte) : (State.setCmdIn s bytes).cmdIn = bytes := rfl
@[simp] theorem State.setCmdIn_busIn (bytes : List Byte) : (State.setCmdIn s bytes).busIn = s.busIn := rfl
@[simp] theorem State.setCmdIn_busOut (bytes : List Byte) : (State.setCmdIn s bytes).busOut = s.busOut := rfl
@[simp] theorem State.setCmdIn_respOut (bytes : List Byte) : (State.setCmdIn s bytes).respOut = s.respOut := rfl
@[simp] theorem State.setCmdIn_diagOut (bytes : List Byte) : (State.setCmdIn s bytes).diagOut = s.diagOut := rfl

/-! ### State.emit -/

@[simp] theorem State.emit_lc (frames : List Frame) (rest : List Answer) : (State.emit s frames rest).lc = s.lc := rfl
@[simp] theorem State.emit_fb (frames : List Frame) (rest : List Answer) : (State.emit s frames rest).fb = s.fb := rfl
@[simp] theorem State.emit_phase (frames : List Frame) (rest : List Answer) : (State.emit s frames rest).phase = s.phase := rfl
@[simp] theorem State.emit_params (frames : List Frame) (rest : List Answer) : (State.emit s frames rest).params = s.params := rfl
@[simp] theorem State.emit_resetIn (frames : List Frame) (rest : List Answer) : (State.emit s frames rest).resetIn = s.resetIn := rfl
@[simp] theorem State.emit_cmdIn (frames : List Frame) (rest : List Answer) : (State.emit s frames rest).cmdIn = s.cmdIn := rfl
@[simp] theorem State.emit_busIn (frames : List Frame) (rest : List Answer) : (State.emit s frames rest).busIn = rest := rfl
@[simp] theorem State.emit_busOut (frames : List Frame) (rest : List Answer) : (State.emit s frames rest).busOut = s.busOut ++ frames := rfl
@[simp] theorem State.emit_respOut (frames : List Frame) (rest : List Answer) : (State.emit s frames rest).respOut = s.respOut := rfl
@[simp] theorem State.emit_diagOut (frames : List Frame) (rest : List Answer) : (State.emit s frames rest).diagOut = s.diagOut := rfl

/-! ### State.diag -/

@[simp] theorem State.diag_lc (e : Diag) : (State.diag s e).lc = s.lc := rfl
@[simp] theorem State.diag_fb (e : Diag) : (State.diag s e).fb = s.fb := rfl
@[simp] theorem State.diag_phase (e : Diag) : (State.diag s e).phase = s.phase := rfl
@[simp] theorem State.diag_params (e : Diag) : (State.diag s e).params = s.params := rfl
@[simp] theorem State.diag_resetIn (e : Diag) : (State.diag s e).resetIn = s.resetIn := rfl
@[simp] theorem State.diag_cmdIn (e : Diag) : (State.diag s e).cmdIn = s.cmdIn := rfl
@[simp] theorem State.diag_busIn (e : Diag) : (State.diag s e).busIn = s.busIn := rfl
@[simp] theorem State.diag_busOut (e : Diag) : (State.diag s e).busOut = s.busOut := rfl
@[simp] theorem State.diag_respOut (e : Diag) : (State.diag s e).respOut = s.respOut := rfl
@[simp] theorem State.diag_diagOut (e : Diag) : (State.diag s e).diagOut = s.diagOut ++ [e] := rfl

/-! ### respond -/

@[simp] theorem respond_lc (code : ResultCode) (data : RespData) : (respond code data s).lc = s.lc := rfl
@[simp] theorem respond_fb (code : ResultCode) (data : RespData) : (respond code data s).fb = s.fb := rfl
@[simp] theorem respond_phase (code : ResultCode) (data : RespData) : (respond code data s).phase = .idle := rfl
@[simp] theorem respond_params (code : ResultCode) (data : RespData) : (respond code data s).params = s.params := rfl
@[simp] theorem respond_resetIn (code : ResultCode) (data : RespData) : (respond code data s).resetIn = s.resetIn := rfl
@[simp] theorem respond_cmdIn (code : ResultCode) (data : RespData) : (respond code data s).cmdIn = s.cmdIn := rfl
@[simp] theorem respond_busIn (code : ResultCode) (data : RespData) : (respond code data s).busIn = s.busIn := rfl
@[simp] theorem respond_busOut (code : ResultCode) (data : RespData) : (respond code data s).busOut = s.busOut := rfl
@[simp] theorem respond_respOut (code : ResultCode) (data : RespData) : (respond code data s).respOut = s.respOut ++ [⟨code, data⟩] := rfl
@[simp] theorem respond_diagOut (code : ResultCode) (data : RespData) : (respond code data s).diagOut = s.diagOut := rfl

/-! ### raise -/

@[simp] theorem raise_lc (code : ResultCode) : (raise code s).lc = s.lc := rfl
@[simp] theorem raise_fb (code : ResultCode) : (raise code s).fb = s.fb := rfl
@[simp] theorem raise_phase (code : ResultCode) : (raise code s).phase = .idle := rfl
@[simp] theorem raise_params (code : ResultCode) : (raise code s).params = s.params := rfl
@[simp] theorem raise_resetIn (code : ResultCode) : (raise code s).resetIn = s.resetIn := rfl
@[simp] theorem raise_cmdIn (code : ResultCode) : (raise code s).cmdIn = s.cmdIn := rfl
@[simp] theorem raise_busIn (code : ResultCode) : (raise code s).busIn = s.busIn := rfl
@[simp] theorem raise_busOut (code : ResultCode) : (raise code s).busOut = s.busOut := rfl
@[simp] theorem raise_respOut (code : ResultCode) : (raise code s).respOut = s.respOut ++ [⟨code, .none⟩] := rfl
@[simp] theorem raise_diagOut (code : ResultCode) : (raise code s).diagOut = s.diagOut := rfl

/-! ### awaitAnswer -/

@[simp] theorem awaitAnswer_lc (stage : Stage) (f : Frame) (queue : List Frame) (n : Nat) : (awaitAnswer stage f queue n s).lc = s.lc := rfl
@[simp] theorem awaitAnswer_fb (stage : Stage) (f : Frame) (queue : List Frame) (n : Nat) : (awaitAnswer stage f queue n s).fb = s.fb := rfl
@[simp] theorem awaitAnswer_phase (stage : Stage) (f : Frame) (queue : List Frame) (n : Nat) : (awaitAnswer stage f queue n s).phase = .bus ⟨stage, f, queue, n⟩ := rfl
@[simp] theorem awaitAnswer_params (stage : Stage) (f : Frame) (queue : List Frame) (n : Nat) : (awaitAnswer stage f queue n s).params = s.params := rfl
@[simp] theorem awaitAnswer_resetIn (stage : Stage) (f : Frame) (queue : List Frame) (n : Nat) : (awaitAnswer stage f queue n s).resetIn = s.resetIn := rfl
@[simp] theorem awaitAnswer_cmdIn (stage : Stage) (f : Frame) (queue : List Frame) (n : Nat) : (awaitAnswer stage f queue n s).cmdIn = s.cmdIn := rfl
@[simp] theorem awaitAnswer_busIn (stage : Stage) (f : Frame) (queue : List Frame) (n : Nat) : (awaitAnswer stage f queue n s).busIn = s.busIn := rfl
@[simp] theorem awaitAnswer_busOut (stage : Stage) (f : Frame) (queue : List Frame) (n : Nat) : (awaitAnswer stage f queue n s).busOut = s.busOut := rfl
@[simp] theorem awaitAnswer_respOut (stage : Stage) (f : Frame) (queue : List Frame) (n : Nat) : (awaitAnswer stage f queue n s).respOut = s.respOut := rfl
@[simp] theorem awaitAnswer_diagOut (stage : Stage) (f : Frame) (queue : List Frame) (n : Nat) : (awaitAnswer stage f queue n s).diagOut = s.diagOut := rfl

/-! ### release -/

@[simp] theorem release_lc : (release s).lc = .detached := rfl
@[simp] theorem release_fb : (release s).fb = none := rfl
@[simp] theorem release_phase : (release s).phase = .idle := rfl
@[simp] theorem release_params : (release s).params = s.params := rfl
@[simp] theorem release_resetIn : (release s).resetIn = s.resetIn := rfl
@[simp] theorem release_cmdIn : (release s).cmdIn = s.cmdIn := rfl
@[simp] theorem release_busIn : (release s).busIn = s.busIn := rfl
@[simp] theorem release_busOut : (release s).busOut = s.busOut := rfl
@[simp] theorem release_respOut : (release s).respOut = s.respOut ++ [⟨.ok, .none⟩] := rfl
@[simp] theorem release_diagOut : (release s).diagOut = s.diagOut := rfl

/-! ### settleWait -/

@[simp] theorem settleWait_lc (d : Nat) : (settleWait d s).lc = s.lc := rfl
@[simp] theorem settleWait_fb (d : Nat) : (settleWait d s).fb = s.fb := rfl
@[simp] theorem settleWait_phase (d : Nat) : (settleWait d s).phase = s.phase := rfl
@[simp] theorem settleWait_params (d : Nat) : (settleWait d s).params = s.params := rfl
@[simp] theorem settleWait_resetIn (d : Nat) : (settleWait d s).resetIn = s.resetIn := rfl
@[simp] theorem settleWait_cmdIn (d : Nat) : (settleWait d s).cmdIn = s.cmdIn := rfl
@[simp] theorem settleWait_busIn (d : Nat) : (settleWait d s).busIn = s.busIn := rfl
@[simp] theorem settleWait_busOut (d : Nat) : (settleWait d s).busOut = s.busOut := rfl
@[simp] theorem settleWait_respOut (d : Nat) : (settleWait d s).respOut = s.respOut := rfl
@[simp] theorem settleWait_diagOut (d : Nat) : (settleWait d s).diagOut = s.diagOut := rfl

/-! ### afterReset -/

@[simp] theorem afterReset_lc : (afterReset s).lc = .detached := rfl
@[simp] theorem afterReset_fb : (afterReset s).fb = none := rfl
@[simp] theorem afterReset_phase : (afterReset s).phase = .idle := rfl
@[simp] theorem afterReset_params : (afterReset s).params = s.params := rfl
@[simp] theorem afterReset_resetIn : (afterReset s).resetIn = false := rfl
@[simp] theorem afterReset_cmdIn : (afterReset s).cmdIn = [] := rfl
@[simp] theorem afterReset_busIn : (afterReset s).busIn = [] := rfl
@[simp] theorem afterReset_busOut : (afterReset s).busOut = s.busOut := rfl
@[simp] theorem afterReset_respOut : (afterReset s).respOut = s.respOut := rfl
@[simp] theorem afterReset_diagOut : (afterReset s).diagOut = s.diagOut := rfl

end Sys2Proof.Machine
end

