-- ==== Sys2Proof/Laws/Bus.lean ====
section
/-! SUPPORT. What sending a run of frames can come to: all answered Ok, one answered Err, or one not answered; how a
run whose answers come in two parts is the run whose answers come at once; and the same for the operations that end
a command by it. -/

namespace Sys2Proof.Machine

/-! ## sendFrames -/

/-- All frames answered Ok (R215). -/
theorem sendFrames_allOk (n : Nat) (fs : List Frame) (rest : List Answer) :
    sendFrames n fs (List.replicate fs.length .ok ++ rest) = ⟨fs, rest, .allOk (n + fs.length)⟩ := by
  induction fs generalizing n with
  | nil => rfl
  | cons f fs ih =>
    simp only [List.length_cons, List.replicate_succ, List.cons_append, sendFrames, ih]
    simp only [Nat.add_assoc, Nat.add_comm 1]

/-- Frame `k` answered Err: the frames up to it were presented, those after it were not (R210). -/
theorem sendFrames_errAt (n : Nat) (fs : List Frame) (k : Nat) (hk : k < fs.length) (rest : List Answer) :
    sendFrames n fs (List.replicate k .ok ++ .err :: rest) = ⟨fs.take (k + 1), rest, .failed (n + k) fs[k]⟩ := by
  induction fs generalizing n k with
  | nil => exact absurd hk (Nat.not_lt_zero k)
  | cons f fs ih =>
    cases k with
    | zero => simp [sendFrames]
    | succ k =>
      have hk' : k < fs.length := by simpa using hk
      simp only [List.replicate_succ, List.cons_append, sendFrames, ih (n + 1) k hk', List.take_succ_cons,
        List.getElem_cons_succ, Nat.add_assoc, Nat.add_comm 1]

/-- Frame `k` not answered: it was presented, and those after it wait (R208, R334). -/
theorem sendFrames_silentAt (n : Nat) (fs : List Frame) (k : Nat) (hk : k < fs.length) :
    sendFrames n fs (List.replicate k .ok) = ⟨fs.take (k + 1), [], .silent fs[k] (fs.drop (k + 1)) (n + k + 1)⟩ := by
  induction fs generalizing n k with
  | nil => exact absurd hk (Nat.not_lt_zero k)
  | cons f fs ih =>
    cases k with
    | zero => simp [sendFrames]
    | succ k =>
      have hk' : k < fs.length := by simpa using hk
      simp only [List.replicate_succ, sendFrames, ih (n + 1) k hk', List.take_succ_cons, List.getElem_cons_succ,
        List.drop_succ_cons, Nat.add_assoc, Nat.add_comm 1]

/-- Everything a run of sends can come to. -/
theorem sendFrames_cases (n : Nat) (fs : List Frame) (as : List Answer) :
    (∃ rest, as = List.replicate fs.length .ok ++ rest ∧ sendFrames n fs as = ⟨fs, rest, .allOk (n + fs.length)⟩) ∨
    (∃ k, ∃ hk : k < fs.length, ∃ rest, as = List.replicate k .ok ++ .err :: rest ∧
      sendFrames n fs as = ⟨fs.take (k + 1), rest, .failed (n + k) fs[k]⟩) ∨
    (∃ k, ∃ hk : k < fs.length, as = List.replicate k .ok ∧
      sendFrames n fs as = ⟨fs.take (k + 1), [], .silent fs[k] (fs.drop (k + 1)) (n + k + 1)⟩) := by
  have key : ∀ (fs : List Frame) (as : List Answer), (∃ rest, as = List.replicate fs.length .ok ++ rest) ∨
      (∃ k, ∃ _ : k < fs.length, ∃ rest, as = List.replicate k .ok ++ .err :: rest) ∨
      (∃ k, ∃ _ : k < fs.length, as = List.replicate k .ok) := by
    intro fs
    induction fs with
    | nil => exact fun as => .inl ⟨as, rfl⟩
    | cons f fs ih =>
      intro as
      match as with
      | [] => exact .inr (.inr ⟨0, Nat.succ_pos _, rfl⟩)
      | .err :: as => exact .inr (.inl ⟨0, Nat.succ_pos _, as, rfl⟩)
      | .ok :: as =>
        rcases ih as with ⟨rest, h⟩ | ⟨k, hk, rest, h⟩ | ⟨k, hk, h⟩
        · exact .inl ⟨rest, by rw [h]; rfl⟩
        · exact .inr (.inl ⟨k + 1, Nat.succ_lt_succ hk, rest, by rw [h]; rfl⟩)
        · exact .inr (.inr ⟨k + 1, Nat.succ_lt_succ hk, by rw [h]; rfl⟩)
  rcases key fs as with ⟨rest, h⟩ | ⟨k, hk, rest, h⟩ | ⟨k, hk, h⟩
  · exact .inl ⟨rest, h, h ▸ sendFrames_allOk n fs rest⟩
  · exact .inr (.inl ⟨k, hk, rest, h, h ▸ sendFrames_errAt n fs k hk rest⟩)
  · exact .inr (.inr ⟨k, hk, h, h ▸ sendFrames_silentAt n fs k hk⟩)

/-- A run that ended without waiting is the same run when more answers are there: they are left over. -/
theorem sendFrames_append_done (n : Nat) (fs : List Frame) (as bs : List Answer)
    (h : ∀ f q k, (sendFrames n fs as).result ≠ .silent f q k) :
    sendFrames n fs (as ++ bs) =
      ⟨(sendFrames n fs as).sent, (sendFrames n fs as).rest ++ bs, (sendFrames n fs as).result⟩ := by
  induction fs generalizing n as with
  | nil => rfl
  | cons f fs ih =>
    match as with
    | [] => exact absurd rfl (h f fs (n + 1))
    | .err :: as => rfl
    | .ok :: as => simp only [List.cons_append, sendFrames, ih (n + 1) as h]

/-- A run that waits goes on with the next answer as if the answer had been there at once. -/
theorem sendFrames_append_silent (n : Nat) (fs : List Frame) (as : List Answer) (f : Frame) (q : List Frame) (k : Nat)
    (h : (sendFrames n fs as).result = .silent f q k) (b : Answer) (bs : List Answer) :
    sendFrames n fs (as ++ b :: bs) =
      match b with
      | .ok => ⟨(sendFrames n fs as).sent ++ (sendFrames k q bs).sent, (sendFrames k q bs).rest,
          (sendFrames k q bs).result⟩
      | .err => ⟨(sendFrames n fs as).sent, bs, .failed (k - 1) f⟩ := by
  induction fs generalizing n as with
  | nil => simp [sendFrames] at h
  | cons g fs ih =>
    match as with
    | [] =>
      simp only [sendFrames, SendResult.silent.injEq] at h
      obtain ⟨rfl, rfl, rfl⟩ := h
      cases b <;> simp [sendFrames]
    | .err :: as => simp [sendFrames] at h
    | .ok :: as =>
      have := ih (n + 1) as h
      cases b <;> simp only [List.cons_append, sendFrames, this]

/-- A run that waits has used every answer. -/
theorem sendFrames_rest_silent (n : Nat) (fs : List Frame) (as : List Answer) (f : Frame) (q : List Frame) (k : Nat)
    (h : (sendFrames n fs as).result = .silent f q k) : (sendFrames n fs as).rest = [] := by
  rcases sendFrames_cases n fs as with ⟨_, _, h'⟩ | ⟨_, _, _, _, h'⟩ | ⟨_, _, _, h'⟩ <;> simp [h'] at h ⊢

/-! ## The frames of a flush -/

@[simp] theorem pageBlock_length (ps : Params) (m : Memory) (p : Nat) : (pageBlock ps m p).length = 9 := by
  simp [pageBlock]

/-- R205: 2 + 8 * (1 + 8) = 74. -/
@[simp] theorem flushFrames_length (ps : Params) (m : Memory) : (flushFrames ps m).length = 74 := by
  simp [flushFrames, List.range_succ]

/-! ## Ending a command by the answers -/

theorem State.emit_emit (s : State) (a b : List Frame) (r r' : List Answer) :
    (s.emit a r).emit b r' = s.emit (a ++ b) r' := by simp [State.emit]

/-- Everything `transmit` can come to. -/
theorem transmit_cases (e : Ending) (n : Nat) (fs : List Frame) (s : State) :
    (∃ rest, s.busIn = List.replicate fs.length .ok ++ rest ∧ transmit e n fs s = endOk e (s.emit fs rest)) ∨
    (∃ k, ∃ hk : k < fs.length, ∃ rest, s.busIn = List.replicate k .ok ++ .err :: rest ∧
      transmit e n fs s = endErr e ((s.emit (fs.take (k + 1)) rest).diag (.txFail (n + k) fs[k]))) ∨
    (∃ k, ∃ hk : k < fs.length, s.busIn = List.replicate k .ok ∧
      transmit e n fs s =
        awaitAnswer (.ending e) fs[k] (fs.drop (k + 1)) (n + k + 1) (s.emit (fs.take (k + 1)) [])) := by
  rcases sendFrames_cases n fs s.busIn with ⟨rest, h, h'⟩ | ⟨k, hk, rest, h, h'⟩ | ⟨k, hk, h, h'⟩
  · exact .inl ⟨rest, h, by simp [transmit, h', concludeEnding]⟩
  · exact .inr (.inl ⟨k, hk, rest, h, by simp [transmit, h', concludeEnding]⟩)
  · exact .inr (.inr ⟨k, hk, h, by simp [transmit, h', concludeEnding]⟩)

theorem transmit_allOk (e : Ending) (n : Nat) (fs : List Frame) (s : State) (rest : List Answer)
    (h : s.busIn = List.replicate fs.length .ok ++ rest) : transmit e n fs s = endOk e (s.emit fs rest) := by
  simp [transmit, h, sendFrames_allOk, concludeEnding]

theorem transmit_errAt (e : Ending) (n : Nat) (fs : List Frame) (s : State) (k : Nat) (hk : k < fs.length)
    (rest : List Answer) (h : s.busIn = List.replicate k .ok ++ .err :: rest) :
    transmit e n fs s = endErr e ((s.emit (fs.take (k + 1)) rest).diag (.txFail (n + k) fs[k])) := by
  simp [transmit, h, sendFrames_errAt n fs k hk, concludeEnding]

theorem transmit_silentAt (e : Ending) (n : Nat) (fs : List Frame) (s : State) (k : Nat) (hk : k < fs.length)
    (h : s.busIn = List.replicate k .ok) :
    transmit e n fs s =
      awaitAnswer (.ending e) fs[k] (fs.drop (k + 1)) (n + k + 1) (s.emit (fs.take (k + 1)) []) := by
  simp [transmit, h, sendFrames_silentAt n fs k hk, concludeEnding]

/-- Everything a mutating command's surface effect and flush can come to: all 74 frames answered Ok, one answered Err,
one not answered. The surface is the new one in each (R75, R212). -/
theorem commitThenFlush_cases (data : RespData) (m : Memory) (s : State) :
    (∃ rest, s.busIn = List.replicate 74 .ok ++ rest ∧
      commitThenFlush data m s = respond .ok data ((s.setFb (some m)).emit (flushFrames s.params m) rest)) ∨
    (∃ k, ∃ hk : k < (flushFrames s.params m).length, ∃ rest, s.busIn = List.replicate k .ok ++ .err :: rest ∧
      commitThenFlush data m s = respond .transportError data
        (((s.setFb (some m)).emit ((flushFrames s.params m).take (k + 1)) rest).diag
          (.txFail k (flushFrames s.params m)[k]))) ∨
    (∃ k, ∃ hk : k < (flushFrames s.params m).length, s.busIn = List.replicate k .ok ∧
      commitThenFlush data m s =
        awaitAnswer (.ending (.flush data)) (flushFrames s.params m)[k] ((flushFrames s.params m).drop (k + 1)) (k + 1)
          ((s.setFb (some m)).emit ((flushFrames s.params m).take (k + 1)) [])) := by
  have := transmit_cases (.flush data) 0 (flushFrames s.params m) (s.setFb (some m))
  simpa only [commitThenFlush, flushThenRespond, flushFrames_length, State.setFb_params, State.setFb_busIn, endOk,
    endErr, Nat.zero_add] using this

/-- Everything INIT's power-on frames can come to. -/
theorem transmitPowerOn_cases (s : State) :
    (∃ rest, s.busIn = List.replicate (powerOnFrames s.params).length .ok ++ rest ∧
      transmitPowerOn s = transmit .init (powerOnFrames s.params).length (flushFrames s.params Memory.zeroed)
        ((s.emit (powerOnFrames s.params) rest).setFb (some Memory.zeroed))) ∨
    (∃ k, ∃ hk : k < (powerOnFrames s.params).length, ∃ rest, s.busIn = List.replicate k .ok ++ .err :: rest ∧
      transmitPowerOn s = respond .deviceInitFailed .none
        (((s.emit ((powerOnFrames s.params).take (k + 1)) rest).diag (.txFail k (powerOnFrames s.params)[k])).setLc
          .detached)) ∨
    (∃ k, ∃ hk : k < (powerOnFrames s.params).length, s.busIn = List.replicate k .ok ∧
      transmitPowerOn s = awaitAnswer .powerOn (powerOnFrames s.params)[k] ((powerOnFrames s.params).drop (k + 1)) (k + 1)
        (s.emit ((powerOnFrames s.params).take (k + 1)) [])) := by
  rcases sendFrames_cases 0 (powerOnFrames s.params) s.busIn with ⟨rest, h, h'⟩ | ⟨k, hk, rest, h, h'⟩ | ⟨k, hk, h, h'⟩
  · exact .inl ⟨rest, h, by simp [transmitPowerOn, h', concludePowerOn, settleWait]⟩
  · exact .inr (.inl ⟨k, hk, rest, h, by simp [transmitPowerOn, h', concludePowerOn]⟩)
  · exact .inr (.inr ⟨k, hk, h, by simp [transmitPowerOn, h', concludePowerOn]⟩)

/-! ## The common checks -/

/-- Everything `whenAttached` can answer with a next state. -/
theorem whenAttached_next {s t : State} {k : Host.Outcome State Fault Refusal} (h : whenAttached s k = .next t) :
    (s.lc = .detached ∧ t = raise .unknownDevice s) ∨ ((s.lc = .active ∨ s.lc = .blanked) ∧ k = .next t) := by
  unfold whenAttached at h
  split at h
  · next hl => exact .inl ⟨hl, by simpa using h.symm⟩
  · next hl => exact .inr ⟨.inl hl, h⟩
  · next hl => exact .inr ⟨.inr hl, h⟩
  · exact absurd h (by simp)
  · exact absurd h (by simp)

/-- Everything `withSurface` can answer with a next state. -/
theorem withSurface_next {s t : State} {k : Memory → State} (h : withSurface s k = .next t) :
    (s.lc = .detached ∧ t = raise .unknownDevice s) ∨
      ((s.lc = .active ∨ s.lc = .blanked) ∧ ∃ m, s.fb = some m ∧ t = k m) := by
  rcases whenAttached_next h with h | ⟨hl, hk⟩
  · exact .inl h
  · split at hk
    · next m hm => exact .inr ⟨hl, m, hm, by simpa using hk.symm⟩
    · exact absurd hk (by simp)

theorem whenAttached_attached {s : State} (h : s.lc = .active ∨ s.lc = .blanked)
    (k : Host.Outcome State Fault Refusal) : whenAttached s k = k := by
  rcases h with h | h <;> simp [whenAttached, h]

theorem withSurface_attached {s : State} {m : Memory} (h : s.lc = .active ∨ s.lc = .blanked) (hm : s.fb = some m)
    (k : Memory → State) : withSurface s k = .next (k m) := by
  simp [withSurface, whenAttached_attached h, hm]

theorem whenAttached_detached {s : State} (h : s.lc = .detached) (k : Host.Outcome State Fault Refusal) :
    whenAttached s k = .next (raise .unknownDevice s) := by simp [whenAttached, h]

theorem withSurface_detached {s : State} (h : s.lc = .detached) (k : Memory → State) :
    withSurface s k = .next (raise .unknownDevice s) := whenAttached_detached h _

end Sys2Proof.Machine
end

