-- ==== Sys2Proof/Laws/Exec.lean ====
section
/-! SUPPORT. What exec can do, said once: a command that exec answers with a next state is answered at once, or ends in a
flush of a new surface, or is INIT, SHUTDOWN or BLANK sending its own frames. Every invariant of exec follows from these
cases and from the cases of what sending frames comes to (Laws/Bus.lean). -/

namespace Sys2Proof.Machine

/-- The events a command emits before its first frame (R170, R140). -/
def eventsBefore : Instr → List Diag
  | .fillRect x y w h _ =>
    let r := clipRect x.toNat y.toNat w.toNat h.toNat
    if isClipped w.toNat h.toNat r then [.clipped x.toNat y.toNat w.toNat h.toNat r.x r.y r.w r.h] else []
  | .rawWrite off payload =>
    let n := clampLen off.toNat payload.length
    if n < payload.length then [.truncated off.toNat payload.length n] else []
  | _ => []

/-- The surface effect of a command that ends in a flush. -/
def surfaceEffect (m : Memory) : Instr → Memory
  | .fillRect x y w h c => fillRect m (clipRect x.toNat y.toNat w.toNat h.toNat) c
  | .copyArea sx sy dx dy w h => copyArea m sx.toNat sy.toNat dx.toNat dy.toNat w.toNat h.toNat
  | .setPixel x y v => pixWrite m x.toNat y.toNat v
  | .rawWrite off payload => memWrite m off.toNat (payload.take (clampLen off.toNat payload.length))
  | _ => m

/-- The data of its response. -/
def flushData : Instr → RespData
  | .rawWrite off payload => .count (clampLen off.toNat payload.length)
  | _ => .none

theorem diagClipped_eq (x y w h : Nat) (r : Rect) (s : State) :
    diagClipped x y w h r s =
      { s with diagOut := s.diagOut ++ if isClipped w h r then [.clipped x y w h r.x r.y r.w r.h] else [] } := by
  by_cases c : isClipped w h r <;> simp [diagClipped, State.diag, c]

theorem diagTruncated_eq (off len n : Nat) (s : State) :
    diagTruncated off len n s =
      { s with diagOut := s.diagOut ++ if n < len then [.truncated off len n] else [] } := by
  by_cases c : n < len <;> simp [diagTruncated, State.diag, c]

/-- The surface effect keeps the canonical form when the operands are accepted (R46, R142, R172). -/
theorem wf_surfaceEffect {m : Memory} (h : Memory.wf m = true) {i : Instr} (ho : operandsOk i = true) :
    Memory.wf (surfaceEffect m i) = true := by
  cases i <;> simp only [operandsOk, Bool.and_eq_true, decide_eq_true_eq] at ho <;> simp only [surfaceEffect]
  case fillRect x y w h' c => exact Memory.wf_paintBlock h (clipRect_inside _ _ _ _).1 (clipRect_inside _ _ _ _).2
  case copyArea sx sy dx dy w h' => exact Memory.wf_paintBlock h ho.1.2 ho.2
  case setPixel x y v => exact Memory.wf_pixWrite h ho.1 ho.2 v
  case rawWrite off pl =>
    refine Memory.wf_memWrite h ?_
    have := clampLen_inside (len := pl.length) (show off.toNat < Config.bufLen from ho)
    simp only [List.length_take]
    omega
  all_goals exact h

/-- FLUSH and the mutating commands on an attached instance, operands accepted: the effect, then the flush (R75). -/
theorem exec_flushes {i : Instr} {s : State} {m : Memory} (hf : flushes i = true) (ho : operandsOk i = true)
    (ha : s.attached) (hm : s.fb = some m) :
    exec i s = .next (commitThenFlush (flushData i) (surfaceEffect m i)
      { s with diagOut := s.diagOut ++ eventsBefore i }) := by
  cases i <;> simp only [flushes, Bool.false_eq_true] at hf
  case fillRect x y w h c =>
    simp [exec, execFillRect, withSurface_attached ha hm, zextByte, diagClipped_eq, flushData, surfaceEffect, eventsBefore]
  case copyArea sx sy dx dy w h =>
    simp only [operandsOk, Bool.and_eq_true, decide_eq_true_eq] at ho
    simp [exec, execCopyArea, withSurface_attached ha hm, zextByte, blockInside, ho, flushData, surfaceEffect, eventsBefore]
  case setPixel x y v =>
    simp only [operandsOk, Bool.and_eq_true, decide_eq_true_eq] at ho
    simp [exec, execSetPixel, withSurface_attached ha hm, zextByte, inSurface, ho, flushData, surfaceEffect, eventsBefore]
  case rawWrite off pl =>
    simp only [operandsOk, decide_eq_true_eq] at ho
    simp [exec, execRawWrite, withSurface_attached ha hm, zextHalf, inBuffer, ho, diagTruncated_eq, flushData,
      surfaceEffect, eventsBefore]
  case flush =>
    simp [exec, execFlush, withSurface_attached ha hm, flushData, surfaceEffect, eventsBefore, commitThenFlush,
      State.setFb, ← hm]

/-- Everything exec can answer with a next state. -/
theorem exec_next {i : Instr} {s t : State} (h : exec i s = .next t) :
    (∃ code data, t = respond code data s ∧ code ∈ mayReturn i ∧ dataOk data = true ∧
      (code = .ok ∨ code ∈ rejectCodes ∧ data = .none)) ∨
    (∃ m, flushes i = true ∧ operandsOk i = true ∧ s.attached ∧ s.fb = some m ∧
      t = commitThenFlush (flushData i) (surfaceEffect m i) { s with diagOut := s.diagOut ++ eventsBefore i }) ∨
    (i = .init ∧ s.lc = .detached ∧ t = transmitPowerOn (s.setLc .attaching)) ∨
    (i = .shutdown ∧ s.attached ∧ t = transmit .shutdown 0 [s.params.displayOff] (s.setLc .detaching)) ∨
    (∃ mode f l, i = .blank mode ∧ s.attached ∧
      (mode.toNat = 1 ∧ f = s.params.displayOff ∧ l = .blanked ∨ mode.toNat = 0 ∧ f = s.params.displayOn ∧ l = .active) ∧
      t = transmit (.blank l) 0 [f] s) := by
  have byFlush : ∀ m, flushes i = true → operandsOk i = true → s.attached → s.fb = some m →
      t = commitThenFlush (flushData i) (surfaceEffect m i) { s with diagOut := s.diagOut ++ eventsBefore i } :=
    fun m hf ho ha hm => by simpa using h.symm.trans (exec_flushes hf ho ha hm)
  cases i
  case nop => exact .inl ⟨.ok, .none, by simpa [exec, execNop] using h.symm, by simp [mayReturn], rfl, .inl rfl⟩
  case fillRect x y w h' c =>
    rcases withSurface_next h with ⟨-, rfl⟩ | ⟨ha, m, hm, -⟩
    · exact .inl ⟨.unknownDevice, .none, rfl, by simp [mayReturn], rfl, .inr ⟨by simp [rejectCodes], rfl⟩⟩
    · exact .inr (.inl ⟨m, rfl, rfl, ha, hm, byFlush m rfl rfl ha hm⟩)
  case copyArea sx sy dx dy w h' =>
    rcases withSurface_next h with ⟨-, rfl⟩ | ⟨ha, m, hm, ht⟩
    · exact .inl ⟨.unknownDevice, .none, rfl, by simp [mayReturn], rfl, .inr ⟨by simp [rejectCodes], rfl⟩⟩
    · by_cases ho : operandsOk (.copyArea sx sy dx dy w h') = true
      · exact .inr (.inl ⟨m, rfl, ho, ha, hm, byFlush m rfl ho ha hm⟩)
      · have hb : ¬(blockInside (zextByte sx) (zextByte sy) (zextByte w) (zextByte h')
            && blockInside (zextByte dx) (zextByte dy) (zextByte w) (zextByte h')) = true := by
          intro c; apply ho; simpa [operandsOk, blockInside, zextByte, and_assoc, Config.width, Config.height] using c
        rw [if_neg hb] at ht
        exact .inl ⟨.outOfBounds, .none, ht, by simp [mayReturn], rfl, .inr ⟨by simp [rejectCodes], rfl⟩⟩
  case setPixel x y v =>
    rcases withSurface_next h with ⟨-, rfl⟩ | ⟨ha, m, hm, ht⟩
    · exact .inl ⟨.unknownDevice, .none, rfl, by simp [mayReturn], rfl, .inr ⟨by simp [rejectCodes], rfl⟩⟩
    · by_cases ho : operandsOk (.setPixel x y v) = true
      · exact .inr (.inl ⟨m, rfl, ho, ha, hm, byFlush m rfl ho ha hm⟩)
      · have hb : ¬inSurface (zextByte x) (zextByte y) = true := ho
        rw [if_neg hb] at ht
        exact .inl ⟨.outOfBounds, .none, ht, by simp [mayReturn], rfl, .inr ⟨by simp [rejectCodes], rfl⟩⟩
  case getPixel x y =>
    rcases withSurface_next h with ⟨-, rfl⟩ | ⟨ha, m, hm, ht⟩
    · exact .inl ⟨.unknownDevice, .none, rfl, by simp [mayReturn], rfl, .inr ⟨by simp [rejectCodes], rfl⟩⟩
    · split at ht
      · exact .inl ⟨.ok, _, ht, by simp [mayReturn], rfl, .inl rfl⟩
      · exact .inl ⟨.outOfBounds, .none, ht, by simp [mayReturn], rfl, .inr ⟨by simp [rejectCodes], rfl⟩⟩
  case rawWrite off pl =>
    rcases withSurface_next h with ⟨-, rfl⟩ | ⟨ha, m, hm, ht⟩
    · exact .inl ⟨.unknownDevice, .none, rfl, by simp [mayReturn], rfl, .inr ⟨by simp [rejectCodes], rfl⟩⟩
    · by_cases ho : operandsOk (.rawWrite off pl) = true
      · exact .inr (.inl ⟨m, rfl, ho, ha, hm, byFlush m rfl ho ha hm⟩)
      · have hb : ¬inBuffer (zextHalf off) = true := ho
        rw [if_neg hb] at ht
        exact .inl ⟨.outOfBounds, .none, ht, by simp [mayReturn], rfl, .inr ⟨by simp [rejectCodes], rfl⟩⟩
  case rawRead off len =>
    rcases withSurface_next h with ⟨-, rfl⟩ | ⟨ha, m, hm, ht⟩
    · exact .inl ⟨.unknownDevice, .none, rfl, by simp [mayReturn], rfl, .inr ⟨by simp [rejectCodes], rfl⟩⟩
    · split at ht
      · refine .inl ⟨.ok, _, ht, by simp [mayReturn], ?_, .inl rfl⟩
        simp only [dataOk, memRead_length, clampLen, decide_eq_true_eq, Config.bufLen]
        omega
      · exact .inl ⟨.outOfBounds, .none, ht, by simp [mayReturn], rfl, .inr ⟨by simp [rejectCodes], rfl⟩⟩
  case pageRead p =>
    rcases withSurface_next h with ⟨-, rfl⟩ | ⟨ha, m, hm, ht⟩
    · exact .inl ⟨.unknownDevice, .none, rfl, by simp [mayReturn], rfl, .inr ⟨by simp [rejectCodes], rfl⟩⟩
    · have hp := p.isLt
      split at ht
      · next hlt =>
        refine .inl ⟨.ok, _, ht, by simp [mayReturn], ?_, .inl rfl⟩
        simp only [zextByte, Config.pages] at hlt
        simp [dataOk, zextByte, Nat.succ_le_of_lt hlt]
      · next hge =>
        refine .inl ⟨.ok, _, ht, by simp [mayReturn], ?_, .inl rfl⟩
        simp only [zextByte, Config.pages] at hge
        simp [dataOk, zextByte]
        omega
  case flush =>
    rcases withSurface_next h with ⟨-, rfl⟩ | ⟨ha, m, hm, -⟩
    · exact .inl ⟨.unknownDevice, .none, rfl, by simp [mayReturn], rfl, .inr ⟨by simp [rejectCodes], rfl⟩⟩
    · exact .inr (.inl ⟨m, rfl, rfl, ha, hm, byFlush m rfl rfl ha hm⟩)
  case init =>
    by_cases hl : s.lc = .detached
    · exact .inr (.inr (.inl ⟨rfl, hl, by simpa [exec, execInit, hl] using h.symm⟩))
    · exact .inl ⟨.illegalCommand, .none, by simpa [exec, execInit, hl, raise] using h.symm, by simp [mayReturn], rfl,
        .inr ⟨by simp [rejectCodes], rfl⟩⟩
  case shutdown =>
    rcases whenAttached_next h with ⟨-, rfl⟩ | ⟨ha, ht⟩
    · exact .inl ⟨.unknownDevice, .none, rfl, by simp [mayReturn], rfl, .inr ⟨by simp [rejectCodes], rfl⟩⟩
    · exact .inr (.inr (.inr (.inl ⟨rfl, ha, by simpa using ht.symm⟩)))
  case blank mode =>
    rcases whenAttached_next h with ⟨-, rfl⟩ | ⟨ha, ht⟩
    · exact .inl ⟨.unknownDevice, .none, rfl, by simp [mayReturn], rfl, .inr ⟨by simp [rejectCodes], rfl⟩⟩
    · unfold blankMode zextByte at ht
      split_ifs at ht with h1 h0
      · exact .inr (.inr (.inr (.inr ⟨mode, _, _, rfl, ha, .inl ⟨h1, rfl, rfl⟩, by simpa using ht.symm⟩)))
      · exact .inr (.inr (.inr (.inr ⟨mode, _, _, rfl, ha, .inr ⟨h0, rfl, rfl⟩, by simpa using ht.symm⟩)))
      · exact .inl ⟨.unsupportedMode, .none, by simpa [raise] using ht.symm, by simp [mayReturn], rfl,
          .inr ⟨by simp [rejectCodes], rfl⟩⟩

end Sys2Proof.Machine
end

