-- ==== Sys2Proof/Laws/Params.lean ====
section
/-! SUPPORT. The parameters of an instance: normalised values meet R13, and values that meet it are not changed, so
`Config.params` ranges over exactly the parameters that R13 admits. -/

namespace Sys2Proof

theorem Params.cmdFrameOk_fixFrame (p q : Params) (h : q.ctrlCmd = p.ctrlCmd) (f : Frame) :
    q.cmdFrameOk (p.fixFrame f) = true := by
  simp [Params.cmdFrameOk, Params.fixFrame, frameOk, h, Config.maxPayload]

/-- Normalised parameters meet R13. -/
theorem Params.wf_normalise (p : Params) : p.normalise.wf = true := by
  have hf := Params.cmdFrameOk_fixFrame p p.normalise rfl
  have hc : (p.normalise.ctrlCmd != p.normalise.ctrlData) = true := by
    simp only [Params.normalise, bne_iff_ne, ne_eq]
    split
    · exact (show ∀ b : Byte, ¬b = b + 1 by decide) _
    · next h => exact fun c => h c.symm
  have hb : p.normalise.pageBase ≤ 0xF8#8 := by
    simp only [Params.normalise]
    split
    · assumption
    · exact BitVec.le_refl _
  have hp : p.normalise.chargePump.all p.normalise.cmdFrameOk = true := by
    simp only [List.all_eq_true]
    intro f h
    simp only [Params.normalise, List.mem_map] at h
    obtain ⟨g, -, rfl⟩ := h
    exact hf g
  simp only [Params.wf, hc, hb, hp, Bool.and_eq_true, decide_eq_true_eq, true_and, and_true]
  exact ⟨⟨⟨hf _, hf _⟩, hf _⟩, hf _⟩

theorem Params.fixFrame_of_ok {p : Params} {f : Frame} (h : p.cmdFrameOk f = true) : p.fixFrame f = f := by
  cases f with
  | nil => simp [Params.cmdFrameOk, frameOk] at h
  | cons b bs =>
    simp only [Params.cmdFrameOk, frameOk, Config.maxPayload, List.length_cons, List.head?_cons, Bool.and_eq_true,
      decide_eq_true_eq, beq_iff_eq, Option.some.injEq] at h
    simp only [Params.fixFrame, Config.maxPayload, List.drop_succ_cons, List.drop_zero, List.cons.injEq,
      List.take_eq_self_iff]
    exact ⟨h.2.symm, by omega⟩

/-- Parameters that meet R13 are not changed. -/
theorem Params.normalise_of_wf {p : Params} (h : p.wf = true) : p.normalise = p := by
  simp only [Params.wf, Bool.and_eq_true, bne_iff_ne, ne_eq, decide_eq_true_eq] at h
  obtain ⟨⟨⟨⟨⟨⟨hc, hb⟩, hs⟩, he⟩, hp⟩, hn⟩, hf⟩ := h
  have hm : p.chargePump.map p.fixFrame = p.chargePump :=
    (List.map_congr_left fun f hf' => Params.fixFrame_of_ok (List.all_eq_true.1 hp f hf')).trans (List.map_id _)
  cases p
  simp only [Params.normalise, Params.fixFrame_of_ok hs, Params.fixFrame_of_ok he, Params.fixFrame_of_ok hn,
    Params.fixFrame_of_ok hf, hm, if_pos hb, if_neg (fun c => hc (Eq.symm c))]

end Sys2Proof
end

