-- ==== Sys2Proof/Laws/Stream.lean ====
section
/-! SUPPORT. The laws of the command stream: a word and its 8 bytes, the payload length that an encoded command
announces, and the fields of an encoded word. -/

namespace Sys2Proof

/-- Bit `i` of the word that 8 stream bytes carry (R91). -/
theorem wordOfBytes_getLsbD (b0 b1 b2 b3 b4 b5 b6 b7 : Byte) (i : Nat) :
    (wordOfBytes b0 b1 b2 b3 b4 b5 b6 b7).getLsbD i =
      if i < 8 then b0.getLsbD i else if i - 8 < 8 then b1.getLsbD (i - 8)
      else if i - 8 - 8 < 8 then b2.getLsbD (i - 8 - 8) else if i - 8 - 8 - 8 < 8 then b3.getLsbD (i - 8 - 8 - 8)
      else if i - 8 - 8 - 8 - 8 < 8 then b4.getLsbD (i - 8 - 8 - 8 - 8)
      else if i - 8 - 8 - 8 - 8 - 8 < 8 then b5.getLsbD (i - 8 - 8 - 8 - 8 - 8)
      else if i - 8 - 8 - 8 - 8 - 8 - 8 < 8 then b6.getLsbD (i - 8 - 8 - 8 - 8 - 8 - 8)
      else b7.getLsbD (i - 8 - 8 - 8 - 8 - 8 - 8 - 8) := by
  have : (wordOfBytes b0 b1 b2 b3 b4 b5 b6 b7).getLsbD i =
    (b7 ++ b6 ++ b5 ++ b4 ++ b3 ++ b2 ++ b1 ++ b0 : BitVec (8 + 8 + 8 + 8 + 8 + 8 + 8 + 8)).getLsbD i := rfl
  rw [this]
  simp only [BitVec.getLsbD_append]

/-- A word's stream bytes carry the word (R91). -/
theorem wordOfBytes_fields (cw : CmdWord) :
    wordOfBytes (fieldByte cw 0) (fieldByte cw 8) (fieldByte cw 16) (fieldByte cw 24) (fieldByte cw 32)
      (fieldByte cw 40) (fieldByte cw 48) (fieldByte cw 56) = cw := by
  apply BitVec.eq_of_getLsbD_eq
  intro i hi
  rw [wordOfBytes_getLsbD]
  simp only [fieldByte, BitVec.getLsbD_extractLsb']
  split_ifs <;> (rw [decide_eq_true (by omega), Bool.true_and]; congr 1; omega)

/-- Taking the word off its own bytes (R91). -/
theorem takeWord_wordBytes (cw : CmdWord) (rest : List Byte) : takeWord (wordBytes cw ++ rest) = some (cw, rest) := by
  simp [wordBytes, takeWord, wordOfBytes_fields]

/-- Taking a word takes exactly 8 bytes. -/
theorem takeWord_some {bytes rest : List Byte} {cw : CmdWord} (h : takeWord bytes = some (cw, rest)) :
    bytes.length = 8 + rest.length ∧ rest = bytes.drop 8 := by
  unfold takeWord at h
  split at h
  · simp only [Option.some.injEq, Prod.mk.injEq] at h
    obtain ⟨-, rfl⟩ := h
    exact ⟨by simp only [List.length_cons]; omega, rfl⟩
  · simp at h

@[simp] theorem wordBytes_length (cw : CmdWord) : (wordBytes cw).length = 8 := rfl

/-- Only RAW_WRITE has a payload (R90, R112). -/
theorem payloadLen_of_op {cw : CmdWord} (h : fieldByte cw 0 ≠ rawWriteOp) : payloadLen cw = 0 := if_neg h

/-- The reserved bits are clear when every bit from `lo` up is 0 (R103). -/
theorem reservedClear_of_getLsbD {cw : CmdWord} {lo : Nat} (h : ∀ i, lo ≤ i → cw.getLsbD i = false) :
    reservedClear cw lo = true := by
  simp only [reservedClear, beq_iff_eq]
  apply BitVec.eq_of_getLsbD_eq
  intro i _
  rw [BitVec.getLsbD_ushiftRight, h _ (Nat.le_add_right lo i), BitVec.getLsbD_zero]

/-- The reserved bits are clear exactly when the word is below the weight of the first of them (R103). -/
theorem reservedClear_iff (cw : CmdWord) (lo : Nat) : reservedClear cw lo = true ↔ cw.toNat < 2 ^ lo := by
  simp only [reservedClear, beq_iff_eq, ← BitVec.toNat_inj, BitVec.toNat_ushiftRight, BitVec.toNat_ofNat,
    Nat.shiftRight_eq_div_pow, Nat.zero_mod, Nat.div_eq_zero_iff]
  simp

theorem getLsbD_of_reservedClear {cw : CmdWord} {lo : Nat} (h : reservedClear cw lo = true) {i : Nat} (hi : lo ≤ i) :
    cw.getLsbD i = false :=
  Nat.testBit_lt_two_pow (Nat.lt_of_lt_of_le ((reservedClear_iff cw lo).1 h) (Nat.pow_le_pow_right (by omega) hi))

/-! ## What a word decodes to -/

/-- What `need` decodes to (R103). -/
theorem need_instr {cw : CmdWord} {lo : Nat} {i j : Instr} (h : need cw lo i = .instr j) :
    reservedClear cw lo = true ∧ j = i := by
  unfold need at h
  split at h
  · next hr => exact ⟨hr, (Decoded.instr.inj h).symm⟩
  · cases h

/-- One arm of the decoder, taken or not. -/
theorem ite_instr {c : Prop} [Decidable c] {a b : Decoded} {i : Instr} (h : (if c then a else b) = .instr i) :
    (c ∧ a = .instr i) ∨ b = .instr i := by
  by_cases hc : c
  · exact .inl ⟨hc, (if_pos hc).symm.trans h⟩
  · exact .inr ((if_neg hc).symm.trans h)

/-- Everything the decoder can decode a word to: its opcode, its reserved bits clear, and the fields of its format
(R92, R99, R103). -/
theorem decodeWord_instr {cw : CmdWord} {pl : List Byte} {i : Instr} (h : decodeWord cw pl = .instr i) :
    (fieldByte cw 0 = 0x01#8 ∧ reservedClear cw 8 = true ∧ i = .nop) ∨
    (fieldByte cw 0 = 0x10#8 ∧ reservedClear cw 41 = true ∧ i = .fillRect (fieldByte cw 8) (fieldByte cw 16)
      (fieldByte cw 24) (fieldByte cw 32) (fieldBit cw 40)) ∨
    (fieldByte cw 0 = 0x11#8 ∧ reservedClear cw 56 = true ∧ i = .copyArea (fieldByte cw 8) (fieldByte cw 16)
      (fieldByte cw 24) (fieldByte cw 32) (fieldByte cw 40) (fieldByte cw 48)) ∨
    (fieldByte cw 0 = 0x20#8 ∧ reservedClear cw 25 = true ∧
      i = .setPixel (fieldByte cw 8) (fieldByte cw 16) (fieldBit cw 24)) ∨
    (fieldByte cw 0 = 0x21#8 ∧ reservedClear cw 24 = true ∧ i = .getPixel (fieldByte cw 8) (fieldByte cw 16)) ∨
    (fieldByte cw 0 = 0x30#8 ∧ reservedClear cw 40 = true ∧ i = .rawWrite (fieldHalf cw 8) pl) ∨
    (fieldByte cw 0 = 0x31#8 ∧ reservedClear cw 40 = true ∧ i = .rawRead (fieldHalf cw 8) (fieldHalf cw 24)) ∨
    (fieldByte cw 0 = 0x32#8 ∧ reservedClear cw 16 = true ∧ i = .pageRead (fieldByte cw 8)) ∨
    (fieldByte cw 0 = 0x40#8 ∧ reservedClear cw 8 = true ∧ i = .flush) ∨
    (fieldByte cw 0 = 0x50#8 ∧ reservedClear cw 8 = true ∧ i = .init) ∨
    (fieldByte cw 0 = 0x51#8 ∧ reservedClear cw 8 = true ∧ i = .shutdown) ∨
    (fieldByte cw 0 = 0x52#8 ∧ reservedClear cw 16 = true ∧ i = .blank (fieldByte cw 8)) := by
  unfold decodeWord at h
  iterate 11
    rcases ite_instr h with ⟨c, h⟩ | h
    · exact .inl ⟨c, need_instr h⟩
    refine .inr ?_
  rcases ite_instr h with ⟨c, h⟩ | h
  · exact ⟨c, need_instr h⟩
  · cases h

end Sys2Proof
end

