-- ==== Sys2Proof/Laws/PerInstr.lean ====
section
/-! SUPPORT. Per command: its encoded word decodes to it, and announces its payload. -/

namespace Sys2Proof.Laws.EncodedWord

/-- The word of a command decodes, with the command's payload, to the command (R103), and the payload length that the
word announces is the payload's, in the 16 bits of `len` (R110, R111). -/
def Statement (i : Instr) : Prop :=
  decodeWord (encodeWord i) i.payload = .instr i ∧ payloadLen (encodeWord i) = i.payload.length % 65536

theorem nop : Statement .nop := ⟨by decide, by decide⟩

theorem fillRect (x y w h : Byte) (c : Bool) : Statement (.fillRect x y w h c) := by
  have h0 : fieldByte (encodeWord (.fillRect x y w h c)) 0 = 0x10#8 := by
    simp (disch := omega) only [fieldByte, encodeWord, BitVec.extractLsb'_append_eq_of_add_le]
    simp
  have h1 : fieldByte (encodeWord (.fillRect x y w h c)) 8 = x := by
    simp (disch := omega) only [fieldByte, encodeWord, BitVec.extractLsb'_append_eq_of_le,
      BitVec.extractLsb'_append_eq_of_add_le]
    simp
  have h2 : fieldByte (encodeWord (.fillRect x y w h c)) 16 = y := by
    simp (disch := omega) only [fieldByte, encodeWord, BitVec.extractLsb'_append_eq_of_le,
      BitVec.extractLsb'_append_eq_of_add_le]
    simp
  have h3 : fieldByte (encodeWord (.fillRect x y w h c)) 24 = w := by
    simp (disch := omega) only [fieldByte, encodeWord, BitVec.extractLsb'_append_eq_of_le,
      BitVec.extractLsb'_append_eq_of_add_le]
    simp
  have h4 : fieldByte (encodeWord (.fillRect x y w h c)) 32 = h := by
    simp (disch := omega) only [fieldByte, encodeWord, BitVec.extractLsb'_append_eq_of_le,
      BitVec.extractLsb'_append_eq_of_add_le]
    simp
  have h5 : fieldBit (encodeWord (.fillRect x y w h c)) 40 = c := by
    simp only [fieldBit, encodeWord, BitVec.getLsbD_append]
    simp
  have hr : reservedClear (encodeWord (.fillRect x y w h c)) 41 = true := by
    refine reservedClear_of_getLsbD fun i hi => ?_
    simp only [encodeWord, BitVec.getLsbD_append]
    split_ifs <;> first | omega | simp
  exact ⟨by simp only [decodeWord, need, h0, h1, h2, h3, h4, h5, hr]; rfl, payloadLen_of_op (h0 ▸ by decide)⟩

theorem copyArea (sx sy dx dy w h : Byte) : Statement (.copyArea sx sy dx dy w h) := by
  have h0 : fieldByte (encodeWord (.copyArea sx sy dx dy w h)) 0 = 0x11#8 := by
    simp (disch := omega) only [fieldByte, encodeWord, BitVec.extractLsb'_append_eq_of_add_le]
    simp
  have h1 : fieldByte (encodeWord (.copyArea sx sy dx dy w h)) 8 = sx := by
    simp (disch := omega) only [fieldByte, encodeWord, BitVec.extractLsb'_append_eq_of_le,
      BitVec.extractLsb'_append_eq_of_add_le]
    simp
  have h2 : fieldByte (encodeWord (.copyArea sx sy dx dy w h)) 16 = sy := by
    simp (disch := omega) only [fieldByte, encodeWord, BitVec.extractLsb'_append_eq_of_le,
      BitVec.extractLsb'_append_eq_of_add_le]
    simp
  have h3 : fieldByte (encodeWord (.copyArea sx sy dx dy w h)) 24 = dx := by
    simp (disch := omega) only [fieldByte, encodeWord, BitVec.extractLsb'_append_eq_of_le,
      BitVec.extractLsb'_append_eq_of_add_le]
    simp
  have h4 : fieldByte (encodeWord (.copyArea sx sy dx dy w h)) 32 = dy := by
    simp (disch := omega) only [fieldByte, encodeWord, BitVec.extractLsb'_append_eq_of_le,
      BitVec.extractLsb'_append_eq_of_add_le]
    simp
  have h5 : fieldByte (encodeWord (.copyArea sx sy dx dy w h)) 40 = w := by
    simp (disch := omega) only [fieldByte, encodeWord, BitVec.extractLsb'_append_eq_of_le,
      BitVec.extractLsb'_append_eq_of_add_le]
    simp
  have h6 : fieldByte (encodeWord (.copyArea sx sy dx dy w h)) 48 = h := by
    simp (disch := omega) only [fieldByte, encodeWord, BitVec.extractLsb'_append_eq_of_le,
      BitVec.extractLsb'_append_eq_of_add_le]
    simp
  have hr : reservedClear (encodeWord (.copyArea sx sy dx dy w h)) 56 = true := by
    refine reservedClear_of_getLsbD fun i hi => ?_
    simp only [encodeWord, BitVec.getLsbD_append]
    split_ifs <;> first | omega | simp
  exact ⟨by simp only [decodeWord, need, h0, h1, h2, h3, h4, h5, h6, hr]; rfl, payloadLen_of_op (h0 ▸ by decide)⟩

theorem setPixel (x y : Byte) (v : Bool) : Statement (.setPixel x y v) := by
  have h0 : fieldByte (encodeWord (.setPixel x y v)) 0 = 0x20#8 := by
    simp (disch := omega) only [fieldByte, encodeWord, BitVec.extractLsb'_append_eq_of_add_le]
    simp
  have h1 : fieldByte (encodeWord (.setPixel x y v)) 8 = x := by
    simp (disch := omega) only [fieldByte, encodeWord, BitVec.extractLsb'_append_eq_of_le,
      BitVec.extractLsb'_append_eq_of_add_le]
    simp
  have h2 : fieldByte (encodeWord (.setPixel x y v)) 16 = y := by
    simp (disch := omega) only [fieldByte, encodeWord, BitVec.extractLsb'_append_eq_of_le,
      BitVec.extractLsb'_append_eq_of_add_le]
    simp
  have h3 : fieldBit (encodeWord (.setPixel x y v)) 24 = v := by
    simp only [fieldBit, encodeWord, BitVec.getLsbD_append]
    simp
  have hr : reservedClear (encodeWord (.setPixel x y v)) 25 = true := by
    refine reservedClear_of_getLsbD fun i hi => ?_
    simp only [encodeWord, BitVec.getLsbD_append]
    split_ifs <;> first | omega | simp
  exact ⟨by simp only [decodeWord, need, h0, h1, h2, h3, hr]; rfl, payloadLen_of_op (h0 ▸ by decide)⟩

theorem getPixel (x y : Byte) : Statement (.getPixel x y) := by
  have h0 : fieldByte (encodeWord (.getPixel x y)) 0 = 0x21#8 := by
    simp (disch := omega) only [fieldByte, encodeWord, BitVec.extractLsb'_append_eq_of_add_le]
    simp
  have h1 : fieldByte (encodeWord (.getPixel x y)) 8 = x := by
    simp (disch := omega) only [fieldByte, encodeWord, BitVec.extractLsb'_append_eq_of_le,
      BitVec.extractLsb'_append_eq_of_add_le]
    simp
  have h2 : fieldByte (encodeWord (.getPixel x y)) 16 = y := by
    simp (disch := omega) only [fieldByte, encodeWord, BitVec.extractLsb'_append_eq_of_le,
      BitVec.extractLsb'_append_eq_of_add_le]
    simp
  have hr : reservedClear (encodeWord (.getPixel x y)) 24 = true := by
    refine reservedClear_of_getLsbD fun i hi => ?_
    simp only [encodeWord, BitVec.getLsbD_append]
    split_ifs <;> first | omega | simp
  exact ⟨by simp only [decodeWord, need, h0, h1, h2, hr]; rfl, payloadLen_of_op (h0 ▸ by decide)⟩

theorem rawWrite (off : Half) (payload : List Byte) : Statement (.rawWrite off payload) := by
  have h0 : fieldByte (encodeWord (.rawWrite off payload)) 0 = 0x30#8 := by
    simp (disch := omega) only [fieldByte, encodeWord, BitVec.extractLsb'_append_eq_of_add_le]
    simp
  have h1 : fieldHalf (encodeWord (.rawWrite off payload)) 8 = off := by
    simp (disch := omega) only [fieldHalf, encodeWord, BitVec.extractLsb'_append_eq_of_le,
      BitVec.extractLsb'_append_eq_of_add_le]
    simp
  have hl : fieldHalf (encodeWord (.rawWrite off payload)) 24 = BitVec.ofNat 16 payload.length := by
    simp (disch := omega) only [fieldHalf, encodeWord, BitVec.extractLsb'_append_eq_of_le,
      BitVec.extractLsb'_append_eq_of_add_le]
    simp
  have hr : reservedClear (encodeWord (.rawWrite off payload)) 40 = true := by
    refine reservedClear_of_getLsbD fun i hi => ?_
    simp only [encodeWord, BitVec.getLsbD_append]
    split_ifs <;> first | omega | simp
  exact ⟨by simp only [decodeWord, need, h0, h1, hr]; rfl, by simp [payloadLen, h0, hl, rawWriteOp, Instr.payload]⟩

theorem rawRead (off len : Half) : Statement (.rawRead off len) := by
  have h0 : fieldByte (encodeWord (.rawRead off len)) 0 = 0x31#8 := by
    simp (disch := omega) only [fieldByte, encodeWord, BitVec.extractLsb'_append_eq_of_add_le]
    simp
  have h1 : fieldHalf (encodeWord (.rawRead off len)) 8 = off := by
    simp (disch := omega) only [fieldHalf, encodeWord, BitVec.extractLsb'_append_eq_of_le,
      BitVec.extractLsb'_append_eq_of_add_le]
    simp
  have h2 : fieldHalf (encodeWord (.rawRead off len)) 24 = len := by
    simp (disch := omega) only [fieldHalf, encodeWord, BitVec.extractLsb'_append_eq_of_le,
      BitVec.extractLsb'_append_eq_of_add_le]
    simp
  have hr : reservedClear (encodeWord (.rawRead off len)) 40 = true := by
    refine reservedClear_of_getLsbD fun i hi => ?_
    simp only [encodeWord, BitVec.getLsbD_append]
    split_ifs <;> first | omega | simp
  exact ⟨by simp only [decodeWord, need, h0, h1, h2, hr]; rfl, payloadLen_of_op (h0 ▸ by decide)⟩

theorem pageRead (p : Byte) : Statement (.pageRead p) := by
  have h0 : fieldByte (encodeWord (.pageRead p)) 0 = 0x32#8 := by
    simp (disch := omega) only [fieldByte, encodeWord, BitVec.extractLsb'_append_eq_of_add_le]
    simp
  have h1 : fieldByte (encodeWord (.pageRead p)) 8 = p := by
    simp (disch := omega) only [fieldByte, encodeWord, BitVec.extractLsb'_append_eq_of_le,
      BitVec.extractLsb'_append_eq_of_add_le]
    simp
  have hr : reservedClear (encodeWord (.pageRead p)) 16 = true := by
    refine reservedClear_of_getLsbD fun i hi => ?_
    simp only [encodeWord, BitVec.getLsbD_append]
    split_ifs <;> first | omega | simp
  exact ⟨by simp only [decodeWord, need, h0, h1, hr]; rfl, payloadLen_of_op (h0 ▸ by decide)⟩

theorem flush : Statement .flush := ⟨by decide, by decide⟩

theorem init : Statement .init := ⟨by decide, by decide⟩

theorem shutdown : Statement .shutdown := ⟨by decide, by decide⟩

theorem blank (mode : Byte) : Statement (.blank mode) := by
  have h0 : fieldByte (encodeWord (.blank mode)) 0 = 0x52#8 := by
    simp (disch := omega) only [fieldByte, encodeWord, BitVec.extractLsb'_append_eq_of_add_le]
    simp
  have h1 : fieldByte (encodeWord (.blank mode)) 8 = mode := by
    simp (disch := omega) only [fieldByte, encodeWord, BitVec.extractLsb'_append_eq_of_le,
      BitVec.extractLsb'_append_eq_of_add_le]
    simp
  have hr : reservedClear (encodeWord (.blank mode)) 16 = true := by
    refine reservedClear_of_getLsbD fun i hi => ?_
    simp only [encodeWord, BitVec.getLsbD_append]
    split_ifs <;> first | omega | simp
  exact ⟨by simp only [decodeWord, need, h0, h1, hr]; rfl, payloadLen_of_op (h0 ▸ by decide)⟩

end Sys2Proof.Laws.EncodedWord
end

