-- ==== Sys2Proof/Tests/Slice0.lean ====
section
/-! SUPPORT. Tests: decoding, one step per command on the spec's test vectors, the well-formedness check, and for every
obligation with hypotheses a state and operands that meet them. Expected values are those of spec/30_encoding.md R122
and of spec/95_test_vectors.md; the vector is named in each comment. -/

namespace Sys2Proof.Tests

open Sys2Proof Sys2Proof.Machine

/-! ## States -/

/-- One admissible choice of the parameters (G3 of 93_implementation_defined.md), two charge-pump frames. -/
def somePars : Params where
  ctrlCmd := 0x00
  ctrlData := 0x40
  colStart := [0x00, 0x21, 0x00]
  colEnd := [0x00, 0x22]
  pageBase := 0xB0
  chargePump := [[0x00, 0x8D], [0x00, 0x14]]
  displayOn := [0x00, 0xAF]
  displayOff := [0x00, 0xAE]

/-- `D`: Detached, no surface. -/
def stateD : State := { State.reset with params := somePars }

/-- `Z` with the listed bytes set: Active. -/
def stateZ (m : Memory) : State := { stateD with lc := .active, fb := some m }

/-- `ZB`: Blanked. -/
def stateB (m : Memory) : State := { stateZ m with lc := .blanked }

/-- Answers: `n` times Ok, then `rest`. -/
def oks (n : Nat) (rest : List Answer) : List Answer := List.replicate n .ok ++ rest

/-- Stream bytes on the command port and answers to come. -/
def given (s : State) (bytes : List Byte) (as : List Answer) : State := { s with cmdIn := bytes, busIn := as }

/-- What a vector's row shows: response bytes, surface, LC, frames sent, events, bytes not taken. -/
structure Row where
  resp : List Byte
  fb : Option Memory
  lc : Lifecycle
  nframes : Nat
  events : List Diag
  left : List Byte
  deriving DecidableEq, Repr

/-- The row of a step. -/
def row (o : Host.Outcome State Fault Refusal) : Option Row :=
  match o with
  | .next t => some ⟨t.responseBytes, t.fb, t.lc, t.busOut.length, t.diagOut, t.cmdIn⟩
  | .fault _ => none
  | .refused _ => none

/-- The frames a step sent. -/
def framesOf (o : Host.Outcome State Fault Refusal) : List Frame :=
  match o with
  | .next t => t.busOut
  | .fault _ => []
  | .refused _ => []

/-! ## Well-formedness -/

theorem wellFormed_replicate (n : Nat) :
    (Instr.rawWrite 0 (List.replicate n 0)).wellFormed = decide (n ≤ 65535) := by
  simp [Instr.wellFormed]

/-- R120: a payload of 65536 bytes has no encoding. -/
theorem test_wellFormed_refuses_long_payload :
    (Instr.rawWrite 0 (List.replicate 65536 0)).wellFormed = false :=
  (wellFormed_replicate 65536).trans (by decide)

/-- R120: 65535 bytes have one. -/
theorem test_wellFormed_accepts_longest_payload :
    (Instr.rawWrite 0 (List.replicate 65535 0)).wellFormed = true :=
  (wellFormed_replicate 65535).trans (by decide)

/-! ## Decoding -/

/-- R122, written out from the bits of R92: one word per constructor. -/
theorem test_decode_words :
    decodeTableWord 64 0x0000000000000001 = some .nop ∧
    decodeTableWord 64 0x00000114140A0A10 = some (.fillRect 10 10 20 20 true) ∧
    decodeTableWord 64 0x0004040800060011 = some (.copyArea 0 6 0 8 4 4) ∧
    decodeTableWord 64 0x00000000013F7F20 = some (.setPixel 127 63 true) ∧
    decodeTableWord 64 0x0000000000090321 = some (.getPixel 3 9) ∧
    decodeTableWord 64 0x000000000203FC30 = some (.rawWrite 1020 [0, 0]) ∧
    decodeTableWord 64 0x0000000400000031 = some (.rawRead 0 1024) ∧
    decodeTableWord 64 0x0000000000000732 = some (.pageRead 7) ∧
    decodeTableWord 64 0x0000000000000040 = some .flush ∧
    decodeTableWord 64 0x0000000000000050 = some .init ∧
    decodeTableWord 64 0x0000000000000051 = some .shutdown ∧
    decodeTableWord 64 0x0000000000000152 = some (.blank 1) := by decide

/-- DEC-1 to DEC-17: words with no opcode or with a reserved bit set. -/
theorem test_decode_rejects :
    ∀ w ∈ [0x00, 0x02, 0x53, 0xFF, 0xE0, 0x101, 0x01090321, 0x03090320, 0x30101000010, 0x101010001000011,
      0x10002000030, 0x8000000004000031, 0x10032, 0x10152, 0x8000000000000040, 0x150, 0x151],
      decodeTableWord 64 w = none := by decide

/-- No two rows of the opcode table share a word. -/
theorem test_opcode_rows_disjoint :
    opcodeTable.Pairwise fun a b => (a.pattern ^^^ b.pattern) &&& (a.mask &&& b.mask) ≠ 0#64 := by decide

/-- Each row's least word decodes to the row's command. -/
theorem test_opcode_rows_decode :
    ∀ r ∈ opcodeTable, (decodeTableWord 64 r.pattern.toNat).map Instr.mnemonic = some r.mnemonic := by decide

/-- L1-12: command lengths. -/
theorem test_command_lengths :
    cmdLength 0x01 0 0 = 8 ∧ cmdLength 0x30 0 0 = 8 ∧ cmdLength 0x30 0x08 0 = 16 ∧ cmdLength 0x30 0 0x04 = 1032 ∧
    cmdLength 0x30 0xFF 0xFF = 65543 ∧ cmdLength 0x31 0xFF 0xFF = 8 := by decide

/-- DEC-11: the payload is taken though the command is illegal; the next command stays. -/
theorem test_illegal_rawWrite_takes_payload :
    row (step (given (stateZ []) [0x30, 0, 0, 2, 0, 1, 0, 0, 0xAA, 0xBB, 0x01] [])) =
      some ⟨[7], some [], .active, 0, [], [0x01]⟩ := by decide

/-! ## Assembly -/

/-- R120 with R122: text to stream bytes; hexadecimal, a mode's name, a comment. -/
theorem test_assemble :
    streamOf "FILL_RECT 10, 0x0A, 20, 0x14, 1" = some [0x10, 0x0A, 0x0A, 0x14, 0x14, 0x01, 0, 0] ∧
    streamOf "RAW_WRITE 1020, [1, 2, 0xFF]" = some [0x30, 0xFC, 0x03, 0x03, 0, 0, 0, 0, 1, 2, 0xFF] ∧
    streamOf "BLANK Normal ; off" = some [0x52, 0x01, 0, 0, 0, 0, 0, 0] ∧
    streamOf "CLR_PIXEL 3, 9" = some [0x20, 0x03, 0x09, 0, 0, 0, 0, 0] := by decide

/-- R120: an operand out of range is an error. -/
theorem test_assemble_rejects :
    assembleText "SET_PIXEL 256, 0, 1" = .error .operandRange ∧ assembleText "FILL_RECT 0, 0, 1, 1, 2" = .error .operandRange ∧
    assembleText "RAW_READ 65536, 0" = .error .operandRange ∧ assembleText "NOP 1" = .error .syntaxError := by decide

/-! ## One step per command -/

/-- CHK-1. -/
theorem test_nop_detached :
    row (step (given stateD [0x01, 0, 0, 0, 0, 0, 0, 0] [])) = some ⟨[0], none, .detached, 0, [], []⟩ := by decide

/-- RF-4: a rectangle across a page edge. -/
theorem test_fillRect :
    row (step (given (stateZ []) [0x10, 3, 5, 2, 6, 1, 0, 0] (oks 74 []))) =
      some ⟨[0], some [(3, 0xE0), (4, 0xE0), (131, 0x07), (132, 0x07)], .active, 74, [], []⟩ := by decide

/-- RF-5: clipped at the corner. -/
theorem test_fillRect_clipped :
    row (step (given (stateZ []) [0x10, 0x78, 0x3C, 0x10, 0x08, 0x01, 0, 0] (oks 74 []))) =
      some ⟨[0], some ((List.range 8).map fun i => (1016 + i, 0xF0)), .active, 74,
        [.clipped 120 60 16 8 120 60 8 4], []⟩ := by decide

/-- RF-12: an overlapping copy. -/
theorem test_copyArea_overlap :
    row (step (given (stateZ [(0, 1), (2, 1), (3, 1)]) [0x11, 0, 0, 1, 0, 4, 1, 0] (oks 74 []))) =
      some ⟨[0], some [(0, 1), (1, 1), (3, 1), (4, 1)], .active, 74, [], []⟩ := by decide

/-- RF-13: a copy across a page edge. -/
theorem test_copyArea_across_pages :
    row (step (given (stateZ [(0, 0x40), (128, 0x82)]) [0x11, 0, 6, 0, 8, 4, 4, 0] (oks 74 []))) =
      some ⟨[0], some [(0, 0x40), (128, 0x89)], .active, 74, [], []⟩ := by decide

/-- SP-4: one bit of a byte. -/
theorem test_setPixel :
    row (step (given (stateZ [(133, 0xC3)]) [0x20, 5, 13, 1, 0, 0, 0, 0] (oks 74 []))) =
      some ⟨[0], some [(133, 0xE3)], .active, 74, [], []⟩ := by decide

/-- P4 step 2: blanked, and the frame with index 9 fails; the pixel stays. -/
theorem test_setPixel_failed_flush :
    row (step (given (stateB []) [0x20, 0, 0, 1, 0, 0, 0, 0] (oks 9 [.err]))) =
      some ⟨[2], some [(0, 1)], .blanked, 10, [.txFail 9 (0x40 :: List.replicate 16 0)], []⟩ := by decide

/-- SP-11, SP-14. -/
theorem test_getPixel :
    row (step (given (stateZ [(131, 0x02)]) [0x21, 3, 9, 0, 0, 0, 0, 0] [])) =
      some ⟨[0, 1], some [(131, 0x02)], .active, 0, [], []⟩ ∧
    row (step (given (stateZ []) [0x21, 0x7F, 0x40, 0, 0, 0, 0, 0] [])) = some ⟨[1], some [], .active, 0, [], []⟩ := by
  decide

/-- SP-15: a write past the end. -/
theorem test_rawWrite_truncated :
    row (step (given (stateZ []) [0x30, 0xFC, 0x03, 8, 0, 0, 0, 0, 1, 2, 3, 4, 5, 6, 7, 8] (oks 74 []))) =
      some ⟨[0, 4, 0], some [(1020, 1), (1021, 2), (1022, 3), (1023, 4)], .active, 74, [.truncated 1020 8 4], []⟩ := by
  decide

/-- CHK-5: rejected, the payload taken. -/
theorem test_rawWrite_detached :
    row (step (given stateD [0x30, 0xD0, 0x07, 1, 0, 0, 0, 0, 1] [])) = some ⟨[3], none, .detached, 0, [], []⟩ := by
  decide

/-- SP-24, SP-26. -/
theorem test_rawRead :
    row (step (given (stateZ [(1020, 1), (1021, 2), (1022, 3), (1023, 4)]) [0x31, 0xFE, 0x03, 0x64, 0, 0, 0, 0] [])) =
      some ⟨[0, 2, 0, 3, 4], some [(1020, 1), (1021, 2), (1022, 3), (1023, 4)], .active, 0, [], []⟩ ∧
    row (step (given (stateZ []) [0x31, 0, 0x04, 1, 0, 0, 0, 0] [])) = some ⟨[1], some [], .active, 0, [], []⟩ := by
  decide

/-- SP-30, SP-31: the record of the last page, and the end of the dump. -/
theorem test_pageRead :
    (exec (.pageRead 7) (stateZ [(896, 0x01), (1023, 0x80)]) =
      .next (respond .ok (.page (memRead [(896, 0x01), (1023, 0x80)] 896 128) 8)
        (stateZ [(896, 0x01), (1023, 0x80)]))) ∧
    (memRead [(896, 0x01), (1023, 0x80)] 896 128).take 2 = [0x01, 0x00] ∧
    (memRead [(896, 0x01), (1023, 0x80)] 896 128).getLast? = some 0x80 ∧
    row (step (given (stateZ []) [0x32, 8, 0, 0, 0, 0, 0, 0] [])) =
      some ⟨[0, 8, 0, 0], some [], .active, 0, [], []⟩ := ⟨rfl, by decide, by decide, by decide⟩

/-- L1-7: frames 2, 12 and 13 of the flush after FILL_RECT 10, 10, 20, 20, 1. -/
theorem test_flush_frames :
    let f := framesOf (step (given (stateZ ((List.range 20).map fun i => (138 + i, 0xFC)))
      [0x40, 0, 0, 0, 0, 0, 0, 0] (oks 74 [])))
    f.length = 74 ∧ f[2]? = some [0x00, 0xB0] ∧ f[12]? = some (0x40 :: (List.replicate 10 0 ++ List.replicate 6 0xFC)) ∧
      f[13]? = some (0x40 :: (List.replicate 14 0xFC ++ [0, 0])) := by decide

/-- EN-2: the first frame fails. -/
theorem test_flush_failed :
    row (step (given (stateZ []) [0x40, 0, 0, 0, 0, 0, 0, 0] [.err])) =
      some ⟨[2], some [], .active, 1, [.txFail 0 [0x00, 0x21, 0x00]], []⟩ := by decide

/-- P5 step 7: INIT with every answer Ok sends 77 frames. -/
theorem test_init :
    row (step (given stateD [0x50, 0, 0, 0, 0, 0, 0, 0] (oks 77 []))) = some ⟨[0], some [], .active, 77, [], []⟩ := by
  decide

/-- P5 step 6: the first frame of INIT's flush fails. -/
theorem test_init_failed :
    row (step (given stateD [0x50, 0, 0, 0, 0, 0, 0, 0] (oks 3 [.err]))) =
      some ⟨[5], none, .detached, 4, [.txFail 3 [0x00, 0x21, 0x00]], []⟩ := by decide

/-- R250's example: the answer is Err and SHUTDOWN returns Ok. -/
theorem test_shutdown_err :
    row (step (given (stateZ [(5, 1)]) [0x51, 0, 0, 0, 0, 0, 0, 0] [.err])) =
      some ⟨[0], none, .detached, 1, [.txFail 0 [0x00, 0xAE]], []⟩ := by decide

/-- CHK-6. -/
theorem test_shutdown_detached :
    row (step (given stateD [0x51, 0, 0, 0, 0, 0, 0, 0] [])) = some ⟨[3], none, .detached, 0, [], []⟩ := by decide

/-- LC-12, LC-14: BLANK 1 while Blanked; BLANK 0 whose frame fails. -/
theorem test_blank :
    row (step (given (stateB []) [0x52, 1, 0, 0, 0, 0, 0, 0] [.ok])) = some ⟨[0], some [], .blanked, 1, [], []⟩ ∧
    row (step (given (stateB []) [0x52, 0, 0, 0, 0, 0, 0, 0] [.err])) =
      some ⟨[2], some [], .blanked, 1, [.txFail 0 [0x00, 0xAF]], []⟩ := by decide

/-- LC-16: BLANK 255. -/
theorem test_blank_unsupported :
    row (step (given (stateB []) [0x52, 0xFF, 0, 0, 0, 0, 0, 0] [])) = some ⟨[4], some [], .blanked, 0, [], []⟩ := by
  decide

/-- R71 against R180 (log 12): the example of R180, COPY_AREA 0, 0, 1, 0, 4, 1, and R181 for the same command again on the
surface that R180 says it leaves: each destination pixel is the source pixel before, so the surface changes. -/
theorem test_copyArea_not_idempotent :
    copyArea [(0, 1), (2, 1), (3, 1)] 0 0 1 0 4 1 = [(0, 1), (1, 1), (3, 1), (4, 1)] ∧
      copyArea [(0, 1), (1, 1), (3, 1), (4, 1)] 0 0 1 0 4 1 = [(0, 1), (1, 1), (2, 1), (4, 1)] := by
  decide

/-- R71 against R181 (log 12), whatever the model: a surface effect with R181's pixel clause for the operands of R180's
example, COPY_AREA 0, 0, 1, 0, 4, 1, is not idempotent. -/
theorem test_no_copy_of_R181_is_idempotent (f : Memory → Memory)
    (hf : ∀ m i, Memory.wf m = true → i < 4 → pixRead (f m) (1 + i) 0 = pixRead m i 0)
    (hw : ∀ m, Memory.wf m = true → Memory.wf (f m) = true) : ∃ m, Memory.wf m = true ∧ f (f m) ≠ f m := by
  refine ⟨[(0, 1)], by decide, fun h => ?_⟩
  have on := hf (f [(0, 1)]) 1 (hw _ (by decide)) (by decide)
  rw [h, hf _ 1 (by decide) (by decide), hf _ 0 (by decide) (by decide)] at on
  exact absurd on (by decide)

/-- R32: the codes of LC, and the reserved ones. -/
theorem test_lifecycle_codes :
    (∀ l ∈ [Lifecycle.detached, .attaching, .active, .blanked, .detaching], Lifecycle.ofCode l.code = some l) ∧
    ∀ c ∈ [5#3, 6#3, 7#3], Lifecycle.ofCode c = none := by decide

/-- The first step after reset runs a presented word (log 13). -/
theorem test_first_step_after_reset :
    row (step (State.reset.withFetchWord 64 0x01)) = some ⟨[0], none, .detached, 0, [], []⟩ := by decide

/-! ## The hypotheses of the obligations can be met -/

/-- A state between two commands, Active, with `as` as the answers to come. -/
def readyZ (m : Memory) (as : List Answer) : State := { stateZ m with busIn := as }

theorem witness_DecodeOfEncode : (Instr.rawWrite 0xFFFF [1, 2]).wellFormed = true := by decide

theorem witness_EncodeOfDecode :
    [1#8, 2#8].length = payloadLen 0x02FFFF30 ∧
      decodeWord 0x02FFFF30 [1, 2] = .instr (.rawWrite 0xFFFF [1, 2]) := by decide

theorem witness_CommandTakesItsAnnouncedLength :
    decodeStream [0x30, 0, 0, 1, 0, 1, 0, 0, 0xAA, 0xBB] = .command (.illegal (.reservedBits 0x30)) [0xBB] := by decide

/-- First clause: an Illegal word with its payload, and a word without payload. -/
theorem witness_WholeCommand :
    [0xAA#8].length = payloadLen 0x010001000030 ∧ ([] : List Byte).length = payloadLen 0xFFFFFFFFFFFFFF31 := by decide

/-- The least operands that do not fit, and the longest list that does. -/
theorem witness_AssembledOperands :
    ¬((0 : Nat) < 256 ∧ (0 : Nat) < 256 ∧ (0 : Nat) < 256 ∧ (0 : Nat) < 256 ∧ (2 : Nat) < 2) ∧
    ¬((255 : Nat) < 256 ∧ (256 : Nat) < 256) ∧ ¬((65536 : Nat) < 65536 ∧ (0 : Nat) < 65536) ∧
    (List.replicate 65535 256).length ≤ 65535 ∧ ¬(65535 < 65536 ∧ ∀ b ∈ [256], b < 256) ∧
    65535 < (List.replicate 65536 0).length := by
  refine ⟨by decide, by decide, by decide, ?_, by decide, ?_⟩ <;> rw [List.length_replicate]
  decide

theorem witness_StepRunsTheDecodedCommand :
    (given stateD [0x50, 0, 0, 0, 0, 0, 0, 0, 0x01] []).resetIn = false ∧
      (given stateD [0x50, 0, 0, 0, 0, 0, 0, 0, 0x01] []).phase = .idle ∧
      decodeStream (given stateD [0x50, 0, 0, 0, 0, 0, 0, 0, 0x01] []).cmdIn = .command (.instr .init) [0x01] := by decide

theorem witness_IllegalWord :
    (given stateD [0x50, 1, 0, 0, 0, 0, 0, 0] []).resetIn = false ∧
      (given stateD [0x50, 1, 0, 0, 0, 0, 0, 0] []).phase = .idle ∧
      decodeStream (given stateD [0x50, 1, 0, 0, 0, 0, 0, 0] []).cmdIn =
        .command (.illegal (.reservedBits 0x50)) [] := by decide

/-- First clause: 65535 bytes announced, none there yet. -/
theorem witness_PayloadMayComeInPieces_word :
    (given stateD (wordBytes 0xFFFF000030) []).resetIn = false ∧
      (given stateD (wordBytes 0xFFFF000030) []).phase = .idle ∧ ([] : List Byte).length < payloadLen 0xFFFF000030 ∧
      (given stateD (wordBytes 0xFFFF000030) []).cmdIn = wordBytes 0xFFFF000030 ++ [] := by decide

/-- Second clause: 2 bytes announced, 1 got, 1 due; none, or the last one, on the port. -/
theorem witness_PayloadMayComeInPieces_bytes :
    ∀ bytes ∈ [[], [7#8]],
      ({ given stateD bytes [] with phase := .payload 0x02000030 [1] 1 } : State).resetIn = false ∧
      ({ given stateD bytes [] with phase := .payload 0x02000030 [1] 1 } : State).phase =
        .payload 0x02000030 [1] 1 ∧ [1#8].length + 1 = payloadLen 0x02000030 := by decide

/-- INIT that waits for the answer to its second frame. -/
theorem witness_AnswersMayComeInPieces :
    ∃ t job, (given stateD [] [.ok]).resetIn = false ∧ exec .init (given stateD [] [.ok]) = .next t ∧
      t.phase = .bus job := ⟨_, _, rfl, rfl, rfl⟩

/-- The three waits. -/
theorem witness_NothingHappensWithoutInput :
    (∃ s : State, s.resetIn = false ∧ (∃ job, s.phase = .bus job) ∧ s.busIn = []) ∧
    (∃ s : State, s.resetIn = false ∧ (∃ cw got due, s.phase = .payload cw got due ∧ 0 < due) ∧ s.cmdIn = []) ∧
    ∃ s : State, s.resetIn = false ∧ s.phase = .idle ∧ s.cmdIn.length < 8 :=
  ⟨⟨{ stateZ [] with phase := .bus ⟨.ending .shutdown, [0, 0xAE], [], 1⟩ }, rfl, ⟨_, rfl⟩, rfl⟩,
    ⟨{ stateZ [] with phase := .payload 0x01000030 [] 1 }, rfl, ⟨_, _, _, rfl, by decide⟩, rfl⟩,
    ⟨given stateD [0x01, 0, 0, 0, 0, 0, 0] [], rfl, rfl, by decide⟩⟩

theorem witness_ResetAbandonsTheCommand : ({ stateZ [] with resetIn := true } : State).resetIn = true := rfl

theorem witness_NopAnswersOk : stateD.phase = .idle ∧ (stateZ []).phase = .idle := by decide

/-- Corner pixels, Active and Blanked. -/
theorem witness_GetPixel :
    (stateZ [(1023, 0x80)]).ready [(1023, 0x80)] ∧ (stateB []).ready [] ∧ (127 : Byte).toNat < 128 ∧
      (63 : Byte).toNat < 64 := by decide

theorem witness_RawRead : (stateZ []).ready [] ∧ (1023 : Half).toNat < 1024 := by decide

/-- Both clauses: the last page, and the end of the dump. -/
theorem witness_PageRead : (stateZ []).ready [] ∧ (7 : Byte).toNat < 8 ∧ 8 ≤ (8 : Byte).toNat := by decide

theorem witness_SetPixel :
    (readyZ [] (oks 74 [.err])).ready [] ∧ (127 : Byte).toNat < 128 ∧ (63 : Byte).toNat < 64 ∧
      (readyZ [] (oks 74 [.err])).answersOk 74 [.err] := ⟨by decide, by decide, by decide, rfl⟩

/-- 8 bytes at 1020, of which 4 fit. -/
theorem witness_RawWrite :
    (readyZ [] (oks 74 [])).ready [] ∧ (1020 : Half).toNat < 1024 ∧
      4 = min (List.replicate 8 (1 : Byte)).length (1024 - (1020 : Half).toNat) ∧
      (readyZ [] (oks 74 [])).answersOk 74 [] := ⟨by decide, by decide, by decide, rfl⟩

/-- A rectangle that runs past both edges. -/
theorem witness_FillRect :
    (readyZ [] (oks 74 [])).ready [] ∧ 120 = min (120 : Byte).toNat 128 ∧
      128 = min ((120 : Byte).toNat + (255 : Byte).toNat) 128 ∧ 60 = min (60 : Byte).toNat 64 ∧
      64 = min ((60 : Byte).toNat + (255 : Byte).toNat) 64 ∧ (readyZ [] (oks 74 [])).answersOk 74 [] :=
  ⟨by decide, by decide, by decide, by decide, by decide, rfl⟩

/-- The lower right corner pixel. -/
theorem witness_FillRectOnABlankSurface :
    ∃ t m', (stateZ []).ready Memory.zeroed ∧ (127 : Byte).toNat + (1 : Byte).toNat ≤ 128 ∧
      (63 : Byte).toNat + (1 : Byte).toNat ≤ 64 ∧ exec (.fillRect 127 63 1 1 true) (stateZ []) = .next t ∧
      t.fb = some m' := ⟨_, _, by decide, by decide, by decide, rfl, rfl⟩

/-- Overlapping blocks that reach the right edge. -/
theorem witness_CopyArea :
    (readyZ [] (oks 74 [])).ready [] ∧ (119 : Byte).toNat + (8 : Byte).toNat ≤ 128 ∧
      (0 : Byte).toNat + (64 : Byte).toNat ≤ 64 ∧ (120 : Byte).toNat + (8 : Byte).toNat ≤ 128 ∧
      (readyZ [] (oks 74 [])).answersOk 74 [] := ⟨by decide, by decide, by decide, by decide, rfl⟩

theorem witness_Flush :
    (readyZ [(5, 1)] (oks 74 [])).ready [(5, 1)] ∧ (readyZ [(5, 1)] (oks 74 [])).answersOk 74 [] := ⟨by decide, rfl⟩

theorem witness_RawWriteThenPageReads : (stateB []).ready [] ∧ [1#8, 2#8].length ≤ 1024 := by decide

theorem witness_DataFrames : somePars.wf = true := by decide

/-- The last frame of the flush fails. -/
theorem witness_FailedFlush :
    (readyZ [] (oks 73 [.err])).ready [] ∧ flushes .flush = true ∧ operandsOk .flush = true ∧ 73 < 74 ∧
      (readyZ [] (oks 73 [.err])).answersErrAt 73 [] := ⟨by decide, rfl, rfl, by decide, rfl⟩

/-- A command that ended, one that waits, and one whose second frame is answered Err with more answers to come. -/
theorem witness_EachFrameIsAnswered :
    (∃ t, exec .shutdown (readyZ [] [.ok]) = .next t ∧ t.phase = .idle) ∧
    (∃ t job, exec .shutdown (stateZ []) = .next t ∧ t.phase = .bus job) ∧
      ∃ t, exec .flush (readyZ [] [.ok, .err, .ok]) = .next t ∧
        (readyZ [] [.ok, .err, .ok]).busIn[1]? = some .err := ⟨⟨_, rfl, rfl⟩, ⟨_, _, rfl, rfl⟩, _, rfl, rfl⟩

theorem witness_Init :
    (given stateD [] (oks 77 [])).phase = .idle ∧ (given stateD [] (oks 77 [])).lc = .detached ∧
      (given stateD [] (oks 77 [])).answersOk ((given stateD [] (oks 77 [])).params.chargePump.length + 75) [] :=
  ⟨rfl, rfl, rfl⟩

/-- INIT's first frame and its last one fail. -/
theorem witness_InitFails :
    ∀ k ∈ [0, 76], ∃ f, (given stateD [] (oks k [.err])).phase = .idle ∧ (given stateD [] (oks k [.err])).lc = .detached ∧
      (given stateD [] (oks k [.err])).fb = none ∧
      (somePars.chargePump ++ [somePars.displayOn] ++ flushFrames somePars Memory.zeroed)[k]? = some f ∧
      (given stateD [] (oks k [.err])).answersErrAt k [] := by
  intro k hk
  rcases List.mem_cons.1 hk with rfl | hk
  · exact ⟨_, rfl, rfl, rfl, rfl, rfl⟩
  · obtain rfl := List.mem_singleton.1 hk
    exact ⟨_, rfl, rfl, rfl, rfl, rfl⟩

theorem witness_Attached :
    (stateZ []).phase = .idle ∧ (stateZ []).attached ∧ (stateB []).phase = .idle ∧ (stateB []).attached := by decide

theorem witness_Shutdown :
    (readyZ [] [.err]).phase = .idle ∧ (readyZ [] [.err]).attached ∧ (readyZ [] [.err]).busIn = .err :: [] := by decide

/-- The clauses of BLANK: Normal, Unblank, the first unsupported mode. -/
theorem witness_Blank :
    (readyZ [] [.ok]).attached ∧ (readyZ [] [.ok]).busIn = .ok :: [] ∧ (readyZ [] [.err]).busIn = .err :: [] ∧
      (1 : Byte).toNat = 1 ∧ (0 : Byte).toNat = 0 ∧ 2 ≤ (2 : Byte).toNat := by decide

theorem witness_Detached :
    stateD.phase = .idle ∧ stateD.lc = .detached ∧ acceptedDetached (.blank 5) = false := by decide

/-- Operands just out of range, for every check; and operands in range. -/
theorem witness_OperandsOutOfRange :
    (stateZ []).ready [] ∧ (∀ i ∈ [Instr.setPixel 128 0 true, .setPixel 0 64 true, .getPixel 127 64, .rawWrite 1024 [],
      .rawRead 1024 0, .copyArea 129 0 0 0 0 1, .blank 2], operandsOk i = false) ∧
    operandsOk (.blank 1) = true ∧
    ∃ t r, exec (.blank 1) (readyZ [] [.ok]) = .next t ∧ t.respOut = (readyZ [] [.ok]).respOut ++ [r] :=
  ⟨by decide, by decide, by decide, _, _, rfl, rfl⟩

/-- Attaching, Detaching, and attached without a surface. -/
theorem witness_StatesThatTheSpecExcludes :
    acceptedDetached .flush = false ∧ ({ stateD with lc := .attaching } : State).lc = .attaching ∧
      ({ stateD with lc := .detaching } : State).lc = .detaching ∧ ({ stateD with lc := .active } : State).attached ∧
      ({ stateD with lc := .active } : State).fb = none := by decide

/-- A rejected command, a failed INIT and a failed flush. -/
theorem witness_NoPartialState :
    stateD.resting ∧ (stateZ []).resting ∧
    (∃ t, exec (.getPixel 128 0) (stateZ []) = .next t ∧
      t.respOut = (stateZ []).respOut ++ [⟨.outOfBounds, .none⟩]) ∧
    (∃ t, exec .init (given stateD [] [.err]) = .next t ∧
      t.respOut = (given stateD [] [.err]).respOut ++ [⟨.deviceInitFailed, .none⟩]) ∧
    ∃ t, exec .flush (readyZ [] [.err]) = .next t ∧
      t.respOut = (readyZ [] [.err]).respOut ++ [⟨.transportError, .none⟩] :=
  ⟨.inl ⟨rfl, rfl⟩, .inr ⟨.inl rfl, rfl⟩, ⟨_, rfl, rfl⟩, ⟨_, rfl, rfl⟩, ⟨_, rfl, rfl⟩⟩

theorem witness_ExecAnswers : ∃ t, exec (.rawWrite 1023 [1, 2]) (readyZ [] [.err]) = .next t := ⟨_, rfl⟩

/-- BLANK 1 that ended. -/
theorem witness_LifecycleChanges :
    ∃ t, (readyZ [] [.ok]).phase = .idle ∧ (readyZ [] [.ok]).attached ∧ exec (.blank 1) (readyZ [] [.ok]) = .next t ∧
      t.phase = .idle := ⟨_, rfl, by decide, rfl, rfl⟩

/-- SET_PIXEL 0, 0, 1 and again. -/
theorem witness_WritesRepeated :
    ∃ t v, (stateZ []).ready [] ∧ exec (.setPixel 0 0 true) (stateZ []) = .next t ∧ t.fb = some [(0, 1)] ∧
      (stateB [(0, 1)]).attached ∧ (stateB [(0, 1)]).fb = some [(0, 1)] ∧
      exec (.setPixel 0 0 true) (stateB [(0, 1)]) = .next v := ⟨_, _, by decide, rfl, rfl, by decide, rfl, rfl⟩

/-- COPY_AREA of blocks that touch, and of a block onto itself, run and run again. -/
theorem witness_CopyAreaRepeated :
    (0 : Byte).toNat + (1 : Byte).toNat ≤ (1 : Byte).toNat ∧
    (∃ t v, (stateZ [(0, 1)]).ready [(0, 1)] ∧ exec (.copyArea 0 0 1 0 1 1) (stateZ [(0, 1)]) = .next t ∧
      t.fb = some [(0, 1), (1, 1)] ∧ (stateB [(0, 1), (1, 1)]).attached ∧
      exec (.copyArea 0 0 1 0 1 1) (stateB [(0, 1), (1, 1)]) = .next v) ∧
    ∃ t v, exec (.copyArea 0 0 0 0 2 1) (stateZ [(0, 1)]) = .next t ∧ t.fb = some [(0, 1)] ∧
      exec (.copyArea 0 0 0 0 2 1) (stateB [(0, 1)]) = .next v :=
  ⟨by decide, ⟨_, _, by decide, rfl, rfl, by decide, rfl⟩, ⟨_, _, rfl, rfl, rfl⟩⟩

theorem witness_ResponseBytes : 1024 ≤ 1024 ∧ ([1, 2, 3] : List Byte).length ≤ 1024 ∧ 255 < 256 := by decide

theorem witness_StepAnswers : ∃ t, step (given stateD [0x01, 0, 0, 0, 0, 0, 0, 0] []) = .next t := ⟨_, rfl⟩

/-- The invariant holds of an attached instance, and it takes a step. -/
theorem witness_Inv :
    (given (stateZ [(5, 1)]) [0x01, 0, 0, 0, 0, 0, 0, 0] []).Inv ∧
      ∃ t, step (given (stateZ [(5, 1)]) [0x01, 0, 0, 0, 0, 0, 0, 0] []) = .next t :=
  ⟨⟨fun m h => by obtain rfl := Option.some.inj h; decide, by decide, .inr ⟨.inl rfl, rfl⟩,
    fun f h => by simp [given, stateZ, stateD, State.reset] at h,
    fun r h => by simp [given, stateZ, stateD, State.reset] at h⟩,
    ⟨_, rfl⟩⟩

end Sys2Proof.Tests
end

section
/-! The pixel map of R61 and its inverse of R65: the page and the column of a byte, and the byte and the bit of the pixel
that page, column and bit name. -/
namespace Sys2Proof.Proofs.PixelMap

open Sys2Proof Sys2Proof.Machine

/-- The column of a pixel's byte (R65). -/
theorem pixelByte_mod_width {x : Nat} (hx : x < Config.width) (y : Nat) : pixelByte x y % Config.width = x :=
  Nat.mul_add_mod_of_lt hx

/-- The page of a pixel's byte (R65). -/
theorem pixelByte_div_width {x : Nat} (hx : x < Config.width) (y : Nat) : pixelByte x y / Config.width = y / 8 := by
  rw [pixelByte, Nat.add_comm, Nat.add_mul_div_right _ _ (Nat.zero_lt_of_lt hx), Nat.div_eq_of_lt hx, Nat.zero_add]

/-- Row `k` of page `p` lies in that page's bytes. -/
theorem pixelByte_page_row (x p : Nat) {k : Nat} (hk : k < 8) :
    pixelByte x (8 * p + k) = p * Config.width + x := by
  have page : (8 * p + k) / 8 = p := by omega
  rw [pixelByte, page]

/-- Row `k` of every page is bit `k` of its bytes. -/
theorem pixelBit_page_row (p : Nat) {k : Nat} (hk : k < 8) : pixelBit (8 * p + k) = k := by
  rw [pixelBit, Nat.mul_comm, Nat.mul_add_mod_of_lt hk]

/-- A byte's column and page lead back to the byte, whichever bit is taken. -/
theorem pixelByte_of_byte (i : Nat) {k : Nat} (hk : k < 8) :
    pixelByte (i % Config.width) (8 * (i / Config.width) + k) = i := by
  rw [pixelByte_page_row _ _ hk, Nat.div_add_mod']

/-- A pixel's page and bit lead back to its row. -/
theorem row_of_pixelByte {x : Nat} (hx : x < Config.width) (y : Nat) :
    8 * (pixelByte x y / Config.width) + pixelBit y = y := by
  rw [pixelByte_div_width hx, pixelBit, Nat.div_add_mod]

/-- Settles O43: the map of R61 and the map of R65 undo each other, in both orders, and each stays in its bounds. -/
theorem pixelMapIsABijection : Obligations.PixelMapIsABijection := by
  constructor
  · intro i k hi hk
    have row : 8 * (i / 128) + k < 64 := by omega
    exact ⟨Nat.mod_lt i (by decide), row, pixelByte_of_byte i hk, pixelBit_page_row _ hk⟩
  · intro x y hx hy
    exact ⟨pixelByte_lt hx hy, pixelBit_lt y, pixelByte_mod_width hx y, row_of_pixelByte hx y⟩

end Sys2Proof.Proofs.PixelMap
end

section
/-! The command stream: a word and its bytes stand for each other, and a whole command is the bytes of a word with as many
payload bytes as it calls for (R91, R110 to R112, R122). -/
namespace Sys2Proof.Proofs.Stream

open Sys2Proof

/-- The stream bytes of the word that 8 bytes carry are those 8 bytes: R91 in the other order than `wordOfBytes_fields`. -/
theorem wordBytes_wordOfBytes (b0 b1 b2 b3 b4 b5 b6 b7 : Byte) :
    wordBytes (wordOfBytes b0 b1 b2 b3 b4 b5 b6 b7) = [b0, b1, b2, b3, b4, b5, b6, b7] := by
  simp (disch := omega) only [wordBytes, fieldByte, wordOfBytes, BitVec.extractLsb'_append_eq_of_le,
    BitVec.extractLsb'_append_eq_of_add_le]
  simp

/-- A word is on the front of the stream exactly when its 8 bytes are. -/
theorem takeWord_eq_some_iff {bytes rest : List Byte} {cw : CmdWord} :
    takeWord bytes = some (cw, rest) ↔ bytes = wordBytes cw ++ rest := by
  constructor
  · intro h
    unfold takeWord at h
    split at h
    · obtain ⟨rfl, rfl⟩ := Prod.mk.inj (Option.some.inj h)
      rw [wordBytes_wordOfBytes]
      rfl
    · cases h
  · rintro rfl
    exact takeWord_wordBytes cw rest

/-- The front of the stream is a whole command exactly when it is the bytes of a word followed by the payload bytes that
the word calls for; the command is what the two decode to, Illegal or not (R103, R110, R111). -/
theorem decodeStream_eq_command_iff {bytes rest : List Byte} {d : Decoded} :
    decodeStream bytes = .command d rest ↔
      ∃ cw p, bytes = wordBytes cw ++ (p ++ rest) ∧ p.length = payloadLen cw ∧ d = decodeWord cw p := by
  constructor
  · intro h
    unfold decodeStream at h
    split at h
    · cases h
    · next cw tail hw =>
      split at h
      · cases h
      · next enough =>
        obtain ⟨rfl, rfl⟩ := Front.command.inj h
        refine ⟨cw, tail.take (payloadLen cw), ?_, List.length_take_of_le (Nat.le_of_not_lt enough), rfl⟩
        rw [List.take_append_drop, takeWord_eq_some_iff.1 hw]
  · rintro ⟨cw, p, rfl, hp, rfl⟩
    simp [decodeStream, takeWord_wordBytes, ← hp]

/-- The 16-bit field `len` is stream bytes 3 and 4, little-endian (R92, R112). -/
theorem toNat_fieldHalf_len (cw : CmdWord) :
    (fieldHalf cw 24).toNat = (fieldByte cw 24).toNat + 256 * (fieldByte cw 32).toNat := by
  simp only [fieldHalf, fieldByte, BitVec.extractLsb'_toNat, Nat.shiftRight_eq_div_pow]
  omega

/-- What bytes 0, 3 and 4 of a word announce is the word's own 8 bytes and its payload (R112). -/
theorem cmdLength_wordBytes (cw : CmdWord) :
    cmdLength (fieldByte cw 0) (fieldByte cw 24) (fieldByte cw 32) = 8 + payloadLen cw := by
  unfold cmdLength payloadLen
  split
  · rw [toNat_fieldHalf_len]
  · rfl

/-- Settles O5: both halves read off what a whole command is, `decodeStream_eq_command_iff`. -/
theorem commandTakesItsAnnouncedLength : Obligations.CommandTakesItsAnnouncedLength := by
  constructor
  · intro cw p rest hp
    exact decodeStream_eq_command_iff.2 ⟨cw, p, List.append_assoc _ _ _, hp, rfl⟩
  · intro bytes rest d h
    obtain ⟨cw, p, rfl, hp, -⟩ := decodeStream_eq_command_iff.1 h
    refine ⟨fieldByte cw 0, fieldByte cw 24, fieldByte cw 32, rfl, rfl, rfl, ?_⟩
    have taken : cmdLength (fieldByte cw 0) (fieldByte cw 24) (fieldByte cw 32) = (wordBytes cw ++ p).length := by
      rw [cmdLength_wordBytes, List.length_append, wordBytes_length, hp]
    rw [taken, ← List.append_assoc]
    exact ⟨by simp, List.drop_left.symm⟩

/-- Settles O1: the twelve examples, evaluated. -/
theorem encodingExamplesDecode : Obligations.EncodingExamplesDecode := by
  unfold Obligations.EncodingExamplesDecode
  decide

end Sys2Proof.Proofs.Stream
end

section
/-! The pseudo-commands of R121. -/
namespace Sys2Proof.Proofs.Assembler

open Sys2Proof Sys2Proof.Machine

/-- CLR_PIXEL is SET_PIXEL with `v = 0`, a value that the field of `v` always holds. -/
theorem assemble_clrPixel (x y : Nat) : (AsmLine.clrPixel x y).assemble = (AsmLine.setPixel x y 0).assemble := by
  simp [AsmLine.assemble]

/-- PUT_FRAME of a whole frame is RAW_WRITE of its bytes at offset 0. -/
theorem assemble_putFrame {bytes : List Nat} (h : bytes.length = 1024) :
    (AsmLine.putFrame bytes).assemble = (AsmLine.rawWrite 0 bytes).assemble :=
  if_pos h

/-- Settles O7: the two pseudo-commands with operands by their lemmas, the five closed ones by evaluation. -/
theorem pseudoCommandsStandForTheirExpansions : Obligations.PseudoCommandsStandForTheirExpansions :=
  ⟨by decide, by decide, assemble_clrPixel, fun _ => assemble_putFrame, by decide, by decide, by decide⟩

end Sys2Proof.Proofs.Assembler
end

section
/-! The byte form of a response (R98). -/
namespace Sys2Proof.Proofs.ResponseBytes

open Sys2Proof Sys2Proof.Machine

/-- Two little-endian bytes carry a number of 16 bits (R98). -/
theorem le16_carries {n : Nat} (h : n < 65536) :
    ∃ lo hi : Byte, le16 n = [lo, hi] ∧ lo.toNat + 256 * hi.toNat = n := by
  refine ⟨_, _, rfl, ?_⟩
  simp only [BitVec.toNat_ofNat]
  omega

/-- Settles O44: each data shape is its definition, with `le16_carries` for the two length bytes. -/
theorem responseBytesCarryTheResponse : Obligations.ResponseBytesCarryTheResponse := by
  refine ⟨by decide, fun c n p b l hn hl hp => ⟨rfl, rfl, ?count, ?bytes, ?page⟩⟩
  case count =>
    obtain ⟨lo, hi, hle, value⟩ := le16_carries (show n < 65536 by omega)
    exact ⟨lo, hi, congrArg (c.value :: ·) hle, value⟩
  case bytes =>
    obtain ⟨lo, hi, hle, value⟩ := le16_carries (show l.length < 65536 by omega)
    exact ⟨lo, hi, congrArg (c.value :: · ++ l) hle, value⟩
  case page =>
    obtain ⟨lo, hi, hle, value⟩ := le16_carries (show l.length < 65536 by omega)
    exact ⟨_, lo, hi, congrArg (c.value :: BitVec.ofNat 8 p :: · ++ l) hle, Nat.mod_eq_of_lt hp, value⟩

end Sys2Proof.Proofs.ResponseBytes
end

section
/-! The flush that ends a mutating command, whole next states: every frame answered Ok, and frame `k` answered Err
(R97, R206, R210, R212). -/
namespace Sys2Proof.Proofs.Flush

open Sys2Proof Sys2Proof.Machine

/-- Every frame answered Ok: all of the new surface's frames are sent and Ok is returned (R215). -/
theorem commitThenFlush_allOk (data : RespData) (m : Memory) {s : State} {rest : List Answer}
    (hs : s.answersOk 74 rest) :
    commitThenFlush data m s = { s with
      phase := .idle, fb := some m, busIn := rest, busOut := s.busOut ++ flushFrames s.params m,
      respOut := s.respOut ++ [⟨.ok, data⟩] } :=
  transmit_allOk (.flush data) 0 (flushFrames s.params m) (s.setFb (some m)) rest (by rwa [flushFrames_length])

/-- Frame `k` answered Err: no frame after it is sent, TxFail names it, and the new surface and the data stay (R97, R212). -/
theorem commitThenFlush_errAt (data : RespData) (m : Memory) {s : State} {k : Nat}
    (hk : k < (flushFrames s.params m).length) {rest : List Answer} (hs : s.answersErrAt k rest) :
    commitThenFlush data m s = { s with
      phase := .idle, fb := some m, busIn := rest, busOut := s.busOut ++ (flushFrames s.params m).take (k + 1),
      diagOut := s.diagOut ++ [.txFail k (flushFrames s.params m)[k]],
      respOut := s.respOut ++ [⟨.transportError, data⟩] } := by
  have flush := transmit_errAt (.flush data) 0 (flushFrames s.params m) (s.setFb (some m)) k hk rest hs
  rwa [Nat.zero_add] at flush

/-- The whole next state of FLUSH or a mutating command whose operands are accepted, every frame answered Ok (R215). -/
theorem exec_flushes_allOk {i : Instr} {s : State} {m : Memory} {rest : List Answer} (hf : flushes i = true)
    (ho : operandsOk i = true) (hr : s.ready m) (hs : s.answersOk 74 rest) :
    exec i s = .next { s with
      fb := some (surfaceEffect m i), busIn := rest, busOut := s.busOut ++ flushFrames s.params (surfaceEffect m i),
      diagOut := s.diagOut ++ eventsBefore i, respOut := s.respOut ++ [⟨.ok, flushData i⟩] } := by
  obtain ⟨idle, attached, surface, -⟩ := hr
  rw [exec_flushes hf ho attached surface,
    commitThenFlush_allOk (s := { s with diagOut := s.diagOut ++ eventsBefore i }) _ _ hs, ← idle]

/-- The whole next state of the same commands with frame `k` answered Err: as with every frame answered Ok, but for the
frames after `k`, TxFail and the code (R97, R210, R212). -/
theorem exec_flushes_errAt {i : Instr} {s : State} {m : Memory} {k : Nat} {rest : List Answer} (hf : flushes i = true)
    (ho : operandsOk i = true) (hr : s.ready m) (hk : k < (flushFrames s.params (surfaceEffect m i)).length)
    (hs : s.answersErrAt k rest) :
    exec i s = .next { s with
      fb := some (surfaceEffect m i), busIn := rest,
      busOut := s.busOut ++ (flushFrames s.params (surfaceEffect m i)).take (k + 1),
      diagOut := s.diagOut ++ eventsBefore i ++ [.txFail k (flushFrames s.params (surfaceEffect m i))[k]],
      respOut := s.respOut ++ [⟨.transportError, flushData i⟩] } := by
  obtain ⟨idle, attached, surface, -⟩ := hr
  rw [exec_flushes hf ho attached surface,
    commitThenFlush_errAt (s := { s with diagOut := s.diagOut ++ eventsBefore i }) _ _ hk hs, ← idle]

/-- Settles O28: the two runs are `exec_flushes_allOk` and `exec_flushes_errAt`, with one surface effect, one list of events
and one response data between them. -/
theorem failedFlushStopsAndKeepsTheMutation : Obligations.FailedFlushStopsAndKeepsTheMutation := by
  intro i s m k rest hr hf ho hk hs
  have inFlush : k < (flushFrames s.params (surfaceEffect m i)).length := by rwa [flushFrames_length]
  exact ⟨surfaceEffect m i, flushData i, eventsBefore i, _,
    exec_flushes_allOk (s := { s with busIn := List.replicate 74 .ok }) hf ho hr (List.append_nil _).symm,
    List.getElem?_eq_getElem inFlush, exec_flushes_errAt hf ho hr inFlush hs⟩

end Sys2Proof.Proofs.Flush
end

section
/-! What FLUSH and the mutating commands leave in FB and LC, whatever the transport answers (R75, R212). -/
namespace Sys2Proof.Proofs.SurfaceAfterFlush

open Sys2Proof Sys2Proof.Machine

/-- The new surface stands before the flush begins, and no answer takes it back (R75, R212). -/
@[simp] theorem commitThenFlush_fb (data : RespData) (m : Memory) (s : State) :
    (commitThenFlush data m s).fb = some m := by
  rcases commitThenFlush_cases data m s with ⟨_, _, h⟩ | ⟨_, _, _, _, h⟩ | ⟨_, _, _, h⟩ <;> rw [h] <;> rfl

@[simp] theorem commitThenFlush_lc (data : RespData) (m : Memory) (s : State) :
    (commitThenFlush data m s).lc = s.lc := by
  rcases commitThenFlush_cases data m s with ⟨_, _, h⟩ | ⟨_, _, _, _, h⟩ | ⟨_, _, _, h⟩ <;> rw [h] <;> rfl

/-- A flushing command whose operands are accepted has its surface effect and keeps LC, for all answers. -/
theorem exec_flushes_fb_lc {i : Instr} {s : State} {m : Memory} (hf : flushes i = true) (ho : operandsOk i = true)
    (hr : s.ready m) : ∃ t, exec i s = .next t ∧ t.fb = some (surfaceEffect m i) ∧ t.lc = s.lc := by
  obtain ⟨-, attached, surface, -⟩ := hr
  exact ⟨_, exec_flushes hf ho attached surface, commitThenFlush_fb _ _ _, commitThenFlush_lc _ _ _⟩

end Sys2Proof.Proofs.SurfaceAfterFlush
end

section
/-! Byte ranges of the surface: each byte after MemWrite, and MemRead of what was written and of consecutive blocks
(R18, R142, R152). -/
namespace Sys2Proof.Proofs.ByteRanges

open Sys2Proof Sys2Proof.Machine

section
variable {m : Memory} {off : Nat} {bs : List Byte} (h : Memory.wf m = true)
  (inside : off + bs.length ≤ Config.bufLen)
include h inside

theorem read_memWrite_in_range {j : Nat} (hj : j < bs.length) :
    Memory.read (memWrite m off bs) (off + j) = bs[j] := by
  have range : off ≤ off + j ∧ off + j < off + bs.length := by omega
  rw [Memory.read_memWrite h inside, if_pos range, Nat.add_sub_cancel_left, List.getD_eq_getElem _ _ hj]

theorem read_memWrite_out_of_range {a : Nat} (ha : ¬(off ≤ a ∧ a < off + bs.length)) :
    Memory.read (memWrite m off bs) a = Memory.read m a := by
  rw [Memory.read_memWrite h inside, if_neg ha]

/-- What was written is what is read back from where it was written. -/
theorem memRead_memWrite : memRead (memWrite m off bs) off bs.length = bs :=
  List.ext_getElem (memRead_length _ _ _) fun j _ hj => by
    rw [memRead_getElem, read_memWrite_in_range h inside hj]

end

/-- Consecutive blocks of `k` bytes are one range. -/
theorem flatMap_memRead_blocks (m : Memory) (k n : Nat) :
    (List.range n).flatMap (fun p => memRead m (p * k) k) = memRead m 0 (n * k) := by
  induction n with
  | zero => rw [Nat.zero_mul]; rfl
  | succ n ih =>
    rw [List.range_succ, List.flatMap_append, ih, List.flatMap_singleton, Nat.succ_mul, memRead_append, Nat.zero_add]

/-- A shorter range from the same offset is the front of a longer one. -/
theorem memRead_isPrefix_of_le (m : Memory) (off : Nat) {k n : Nat} (hk : k ≤ n) :
    memRead m off k <+: memRead m off n := by
  obtain ⟨d, rfl⟩ := Nat.exists_eq_add_of_le hk
  exact ⟨_, (memRead_append m off k d).symm⟩

end Sys2Proof.Proofs.ByteRanges
end

section
/-! SET_PIXEL, RAW_WRITE and the pages read back after it (R131, R142, R152). -/
namespace Sys2Proof.Proofs.SurfacePrimitives

open Sys2Proof Sys2Proof.Machine
open Sys2Proof.Proofs.Flush Sys2Proof.Proofs.SurfaceAfterFlush Sys2Proof.Proofs.ByteRanges

/-- Settles O19: the new surface is `pixWrite`, which changes exactly one pixel and only within that pixel's byte. -/
theorem setPixelWritesOnePixelAndFlushes : Obligations.SetPixelWritesOnePixelAndFlushes := by
  intro s m x y v hr hx hy
  have ok : operandsOk (.setPixel x y v) = true := by simp [operandsOk, hx, hy]
  have ⟨_, _, _, wf⟩ := hr
  refine ⟨pixWrite m x.toNat y.toNat v, Memory.wf_pixWrite wf hx hy v,
    fun x' y' hx' _ => pixRead_pixWrite wf hx hx' v, fun a ha => ?otherByte, exec_flushes_fb_lc rfl ok hr,
    fun rest hs => ?allOk⟩
  case otherByte => rw [Memory.read_pixWrite wf, if_neg ha]
  case allOk => simpa [surfaceEffect, eventsBefore, flushData] using exec_flushes_allOk rfl ok hr hs

/-- The bytes that fit are as many as the clamped length says (R140). -/
theorem length_take_clampLen (off : Nat) (pl : List Byte) :
    (pl.take (clampLen off pl.length)).length = clampLen off pl.length :=
  List.length_take_of_le (Nat.min_le_left _ _)

/-- Settles O20: the new surface is `memWrite` of the payload cut to the clamped length, which ends inside the surface. -/
theorem rawWriteWritesTheBytesThatFitAndFlushes : Obligations.RawWriteWritesTheBytesThatFitAndFlushes := by
  rintro s m off pl n hr hoff rfl
  have ok : operandsOk (.rawWrite off pl) = true := by simp [operandsOk, hoff]
  have ⟨_, _, _, wf⟩ := hr
  have length := length_take_clampLen off.toNat pl
  have inside : off.toNat + (pl.take (clampLen off.toNat pl.length)).length ≤ Config.bufLen := by
    rw [length]; exact clampLen_inside hoff
  refine ⟨surfaceEffect m (.rawWrite off pl), wf_surfaceEffect wf ok, clampLen_inside hoff, fun j hj => ?written,
    fun a ha => ?otherByte, exec_flushes_fb_lc rfl ok hr, fun rest hs => exec_flushes_allOk rfl ok hr hs⟩
  case written =>
    have fits : j < (pl.take (clampLen off.toNat pl.length)).length := by rwa [length]
    rw [surfaceEffect, read_memWrite_in_range wf inside fits, List.getElem_take, List.getElem?_eq_getElem]
  case otherByte => exact read_memWrite_out_of_range wf inside (by rwa [length])

/-- At offset 0 every payload of at most 1024 bytes is written whole. -/
theorem surfaceEffect_rawWrite_zero (m : Memory) {b : List Byte} (hb : b.length ≤ 1024) :
    surfaceEffect m (.rawWrite 0 b) = memWrite m 0 b := by
  have whole : clampLen 0 b.length = b.length := Nat.min_eq_left hb
  simp [surfaceEffect, whole]

/-- PAGE_READ of a page answers its 128 bytes (R150). -/
theorem exec_pageRead {s : State} {m : Memory} (ha : s.attached) (hm : s.fb = some m) {p : Byte}
    (hp : p.toNat < Config.pages) :
    exec (.pageRead p) s = .next (respond .ok
      (.page (memRead m (p.toNat * Config.pageBytes) Config.pageBytes) (p.toNat + 1)) s) := by
  simp only [exec, execPageRead, withSurface_attached ha hm, if_pos hp]

/-- Settles O25: the eight pages are the 1024 bytes of the surface in order, which begin with the bytes written at 0. -/
theorem rawWriteThenPageReadsReturnTheBytes : Obligations.RawWriteThenPageReadsReturnTheBytes := by
  intro s m b hr hb
  obtain ⟨t, run, fb, lc⟩ := exec_flushes_fb_lc (i := .rawWrite 0 b) rfl (by simp [operandsOk]) hr
  rw [surfaceEffect_rawWrite_zero m hb] at fb
  obtain ⟨-, attached, -, wf⟩ := hr
  refine ⟨t, fun p => memRead (memWrite m 0 b) (p * Config.pageBytes) Config.pageBytes, run,
    fun p u hp hfb hlc => ?page, ?front⟩
  case page =>
    have operand : (BitVec.ofNat 8 p).toNat = p := Nat.mod_eq_of_lt (by omega)
    have attached' : u.attached := by rwa [State.attached, hlc, lc]
    have read := exec_pageRead attached' (hfb.trans fb) (p := BitVec.ofNat 8 p) (operand.symm ▸ hp)
    rw [operand] at read
    exact ⟨_, read, rfl, rfl, rfl⟩
  case front =>
    have inside : 0 + b.length ≤ Config.bufLen := by rwa [Nat.zero_add]
    have front := memRead_isPrefix_of_le (memWrite m 0 b) 0 (show b.length ≤ Config.pages * Config.pageBytes from hb)
    rwa [memRead_memWrite wf inside, ← flatMap_memRead_blocks] at front

end Sys2Proof.Proofs.SurfacePrimitives
end

section
/-! FILL_RECT and COPY_AREA: the block that each paints, pixel by pixel and byte by byte (R170, R171, R180, R181). -/
namespace Sys2Proof.Proofs.RasterOps

open Sys2Proof Sys2Proof.Machine
open Sys2Proof.Proofs.Flush Sys2Proof.Proofs.SurfaceAfterFlush

section
variable {f : Nat → Nat → Bool} {m : Memory} {x0 y0 w n : Nat} (h : Memory.wf m = true)
  (hx : x0 + w ≤ Config.width) (hy : y0 + n ≤ Config.height)
include h hx hy

theorem pixRead_paintBlock_in_block {i j : Nat} (hi : i < w) (hj : j < n) :
    pixRead (paintBlock f x0 y0 w n m) (x0 + i) (y0 + j) = f i j := by
  have block : (x0 ≤ x0 + i ∧ x0 + i < x0 + w) ∧ (y0 ≤ y0 + j ∧ y0 + j < y0 + n) := by omega
  rw [pixRead_paintBlock h hx hy (by omega), if_pos block, Nat.add_sub_cancel_left, Nat.add_sub_cancel_left]

/-- A byte that holds no pixel of the block is as it was, for every pixel it does hold is. -/
theorem read_paintBlock_out_of_block {a : Nat}
    (ha : ∀ x' y', x0 ≤ x' → x' < x0 + w → y0 ≤ y' → y' < y0 + n → pixelByte x' y' ≠ a) :
    Memory.read (paintBlock f x0 y0 w n m) a = Memory.read m a := by
  refine Memory.read_eq_of_pixRead h (Memory.wf_paintBlock h hx hy) a fun x' y' hx' _ byte => ?_
  have outside : ¬((x0 ≤ x' ∧ x' < x0 + w) ∧ (y0 ≤ y' ∧ y' < y0 + n)) :=
    fun ⟨⟨left, right⟩, top, bottom⟩ => ha x' y' left right top bottom byte
  rw [pixRead_paintBlock h hx hy hx', if_neg outside]

end

/-- The clipped rectangle ends where the requested one does, or at the edge of the surface (R170). -/
theorem clipRect_ends (x y w h : Nat) :
    (clipRect x y w h).x + (clipRect x y w h).w = min (x + w) Config.width ∧
      (clipRect x y w h).y + (clipRect x y w h).h = min (y + h) Config.height := by
  simp only [clipRect]
  omega

/-- FILL_RECT emits Clipped exactly when fewer pixels are painted than were asked for (R170, R171). -/
theorem eventsBefore_fillRect (x y w h : Byte) (c : Bool) :
    eventsBefore (.fillRect x y w h c) =
      let r := clipRect x.toNat y.toNat w.toNat h.toNat
      if r.w * r.h < w.toNat * h.toNat then [.clipped x.toNat y.toNat w.toNat h.toNat r.x r.y r.w r.h] else [] :=
  if_congr decide_eq_true_iff rfl rfl

/-- Settles O21: the new surface is the clipped rectangle painted, and its two ends are those of `clipRect_ends`. -/
theorem fillRectPaintsTheClippedRectangleAndFlushes : Obligations.FillRectPaintsTheClippedRectangleAndFlushes := by
  rintro s m x y w h c x0 x1 y0 y1 hr rfl rfl rfl rfl
  have ⟨_, _, _, wf⟩ := hr
  obtain ⟨insideX, insideY⟩ := clipRect_inside x.toNat y.toNat w.toNat h.toNat
  obtain ⟨endX, endY⟩ := clipRect_ends x.toNat y.toNat w.toNat h.toNat
  refine ⟨surfaceEffect m (.fillRect x y w h c), wf_surfaceEffect wf rfl, fun x' y' hx' _ => ?pixels, fun a ha => ?bytes,
    exec_flushes_fb_lc rfl rfl hr, fun rest hs => ?allOk⟩
  case pixels =>
    have painted := pixRead_paintBlock (f := fun _ _ => c) wf insideX insideY hx' y'
    rwa [endX, endY] at painted
  case bytes =>
    refine read_paintBlock_out_of_block wf insideX insideY ?_
    rwa [endX, endY]
  case allOk =>
    have run := exec_flushes_allOk (i := .fillRect x y w h c) rfl rfl hr hs
    rwa [eventsBefore_fillRect] at run

/-- Settles O23: the block painted is the snapshot of the surface as it was before the command, so overlap plays no part. -/
theorem copyAreaCopiesThePreCopySourceAndFlushes : Obligations.CopyAreaCopiesThePreCopySourceAndFlushes := by
  intro s m sx sy dx dy w h hr hsx hsy hdx hdy
  have ok : operandsOk (.copyArea sx sy dx dy w h) = true := by simp [operandsOk, hsx, hsy, hdx, hdy]
  have ⟨_, _, _, wf⟩ := hr
  refine ⟨surfaceEffect m (.copyArea sx sy dx dy w h), wf_surfaceEffect wf ok,
    fun i j hi hj => pixRead_paintBlock_in_block wf hdx hdy hi hj, fun x' y' hx' _ outside => ?otherPixel,
    fun a ha => ?otherByte, exec_flushes_fb_lc rfl ok hr, fun rest hs => ?allOk⟩
  case otherPixel => exact (pixRead_paintBlock wf hdx hdy hx' y').trans (if_neg outside)
  case otherByte =>
    refine read_paintBlock_out_of_block wf hdx hdy fun x' y' left right top bottom => ?_
    obtain ⟨i, rfl⟩ := Nat.exists_eq_add_of_le left
    obtain ⟨j, rfl⟩ := Nat.exists_eq_add_of_le top
    exact ha i j (by omega) (by omega)
  case allOk => simpa [eventsBefore, flushData] using exec_flushes_allOk rfl ok hr hs

end Sys2Proof.Proofs.RasterOps
end

section
/-! The frames of a flush: each page's block of nine frames by its place in the list, and the surface in the payloads of
the data frames (R202, R203, R204, R214). -/
namespace Sys2Proof.Proofs.FlushFrames

open Sys2Proof Sys2Proof.Machine
open Sys2Proof.Proofs.ByteRanges

/-! ## Page by page -/

/-- R204: after the two column frames, page `p`'s nine frames begin at frame `2 + 9 * p`. -/
theorem take_drop_flushFrames (ps : Params) (m : Memory) {p : Nat} (hp : p < Config.pages) :
    ((flushFrames ps m).drop (2 + 9 * p)).take 9 = pageBlock ps m p := by
  obtain ⟨d, pages⟩ := Nat.exists_eq_add_of_lt hp
  have blocks : (List.range Config.pages).flatMap (pageBlock ps m) =
      (List.range p).flatMap (pageBlock ps m) ++
        (pageBlock ps m p ++ ((List.range d).map (p + 1 + ·)).flatMap (pageBlock ps m)) := by
    rw [pages, show p + d + 1 = p + 1 + d by omega, List.range_add, List.range_succ, List.flatMap_append,
      List.flatMap_append, List.flatMap_singleton, List.append_assoc]
  have before : ([ps.colStart, ps.colEnd] ++ (List.range p).flatMap (pageBlock ps m)).length = 2 + 9 * p := by
    have pagesBefore : ((List.range p).flatMap (pageBlock ps m)).length = 9 * p := by
      simp [List.length_flatMap, Nat.mul_comm]
    rw [List.length_append, pagesBefore]
    rfl
  rw [flushFrames, blocks, ← List.append_assoc, List.drop_left' before, List.take_left' (pageBlock_length ps m p)]

/-- The frame at place `r` of page `p`'s block. -/
theorem flushFrames_getElem? (ps : Params) (m : Memory) {p r : Nat} (hp : p < Config.pages) (hr : r < 9) :
    (flushFrames ps m)[2 + 9 * p + r]? = (pageBlock ps m p)[r]? := by
  rw [← take_drop_flushFrames ps m hp, List.getElem?_take_of_lt hr, List.getElem?_drop]

/-- A block is its page-select frame and then its data frames in order. -/
theorem pageBlock_getElem? (ps : Params) (m : Memory) (p : Nat) {r : Nat} (hr : r < 9) :
    (pageBlock ps m p)[r]? = some (if r = 0 then pageSel ps p else dataFrame ps m p (r - 1)) := by
  cases r with
  | zero => rfl
  | succ k => simp [pageBlock, List.getElem?_range (show k < 8 by omega)]

/-- Settles O26: frame `q + 2` stands in the block of page `q / 9`, at place `q % 9`. -/
theorem flushFramesAreTheSequenceOfTheSpec : Obligations.FlushFramesAreTheSequenceOfTheSpec := by
  refine fun ps m => ⟨flushFrames_length ps m, rfl, rfl, fun q hq => ?_⟩
  have page : q / 9 < Config.pages := Nat.div_lt_of_lt_mul hq
  have place : q % 9 < 9 := Nat.mod_lt q (by decide)
  rw [show q + 2 = 2 + 9 * (q / 9) + q % 9 by omega, flushFrames_getElem? ps m page place,
    pageBlock_getElem? ps m _ place]
  rfl

/-! ## Payloads -/

/-- `flatMap_memRead_blocks` from any offset. -/
theorem flatMap_memRead_blocks_from (m : Memory) (off k n : Nat) :
    (List.range n).flatMap (fun j => memRead m (off + k * j) k) = memRead m off (k * n) := by
  induction n with
  | zero => rfl
  | succ n ih =>
    rw [List.range_succ, List.flatMap_append, ih, List.flatMap_singleton, Nat.mul_succ, memRead_append]

/-- R203: the payloads of page `p`'s data frames are that page. -/
theorem flatMap_payload_pageDataFrames (ps : Params) (m : Memory) (p : Nat) :
    ((List.range Config.chunksPerPage).map (dataFrame ps m p)).flatMap (List.drop 1) =
      memRead m (p * Config.pageBytes) Config.pageBytes := by
  rw [List.flatMap_map]
  exact flatMap_memRead_blocks_from m (p * Config.pageBytes) Config.chunk Config.chunksPerPage

/-- A data frame, told from the command frames by its discriminator (R201). -/
def isDataFrame (ps : Params) (f : Frame) : Bool := f.head? == some ps.ctrlData

@[simp] theorem isDataFrame_dataFrame (ps : Params) (m : Memory) (p k : Nat) :
    isDataFrame ps (dataFrame ps m p k) = true := by simp [isDataFrame, dataFrame]

/-- R13: the two discriminators differ, so no command frame is taken for a data frame. -/
theorem isDataFrame_of_cmdFrame {ps : Params} (h : ps.wf = true) {f : Frame} (hf : f.head? = some ps.ctrlCmd) :
    isDataFrame ps f = false := by
  simp only [Params.wf, Bool.and_eq_true, bne_iff_ne] at h
  simp [isDataFrame, hf, h]

/-- R13: the column frames are command frames. -/
theorem isDataFrame_columnFrames {ps : Params} (h : ps.wf = true) :
    isDataFrame ps ps.colStart = false ∧ isDataFrame ps ps.colEnd = false := by
  have ⟨start, stop⟩ : ps.colStart.head? = some ps.ctrlCmd ∧ ps.colEnd.head? = some ps.ctrlCmd := by
    simp only [Params.wf, Params.cmdFrameOk, Bool.and_eq_true, beq_iff_eq] at h
    simp [h]
  exact ⟨isDataFrame_of_cmdFrame h start, isDataFrame_of_cmdFrame h stop⟩

theorem filter_pageBlock {ps : Params} (h : ps.wf = true) (m : Memory) (p : Nat) :
    (pageBlock ps m p).filter (isDataFrame ps) = (List.range Config.chunksPerPage).map (dataFrame ps m p) := by
  rw [pageBlock, List.filter_cons_of_neg (Bool.eq_false_iff.1 (isDataFrame_of_cmdFrame h rfl)), List.filter_eq_self]
  simp

/-- The data frames of a flush are those of its pages in order. -/
theorem filter_flushFrames {ps : Params} (h : ps.wf = true) (m : Memory) :
    (flushFrames ps m).filter (isDataFrame ps) =
      (List.range Config.pages).flatMap fun p => (List.range Config.chunksPerPage).map (dataFrame ps m p) := by
  obtain ⟨start, stop⟩ := isDataFrame_columnFrames h
  simp only [flushFrames, List.filter_append, List.filter_flatMap, filter_pageBlock h]
  simp [start, stop]

/-- Settles O27: the payloads of each page's data frames are that page, and the eight pages are the surface. -/
theorem dataFramesCarryTheWholeSurface : Obligations.DataFramesCarryTheWholeSurface := by
  refine fun ps m h => ⟨?surface, fun p hp => ?page⟩
  case surface =>
    calc ((flushFrames ps m).filter (isDataFrame ps)).flatMap (List.drop 1)
        = (List.range Config.pages).flatMap fun p => memRead m (p * Config.pageBytes) Config.pageBytes := by
          simp only [filter_flushFrames h, List.flatMap_assoc, flatMap_payload_pageDataFrames]
      _ = memRead m 0 1024 := flatMap_memRead_blocks m Config.pageBytes Config.pages
  case page =>
    have dataFrames : ((flushFrames ps m).drop (3 + 9 * p)).take 8 =
        (List.range Config.chunksPerPage).map (dataFrame ps m p) := by
      have block := congrArg List.tail (take_drop_flushFrames ps m hp)
      rwa [List.tail_take_eq_take_tail, List.tail_drop, Nat.add_right_comm] at block
    rw [dataFrames, flatMap_payload_pageDataFrames, Nat.mul_comm]

end Sys2Proof.Proofs.FlushFrames
end

section
/-! INIT from Detached: its power-on frames and then its flush are one run of frames, and an Err at any of them leads to
one end (R240, R242, R244). -/
namespace Sys2Proof.Proofs.InitSequence

open Sys2Proof Sys2Proof.Machine

/-- The frames of an INIT whose every frame is answered Ok, in order (R244). -/
def initFrames (ps : Params) : List Frame := powerOnFrames ps ++ flushFrames ps Memory.zeroed

/-- R240: INIT while Detached sends its power-on frames while Attaching. -/
theorem exec_init_detached {s : State} (h : s.lc = .detached) :
    exec .init s = .next (transmitPowerOn (s.setLc .attaching)) := if_pos h

/-- Power-on frames all answered Ok: the zeroed surface stands, and its flush counts its sends on from them (R240). -/
theorem transmitPowerOn_allOk {s : State} {rest : List Answer} (h : s.answersOk (powerOnFrames s.params).length rest) :
    transmitPowerOn s = transmit .init (powerOnFrames s.params).length (flushFrames s.params Memory.zeroed)
      ((s.emit (powerOnFrames s.params) rest).setFb (some Memory.zeroed)) := by
  simp [transmitPowerOn, h, sendFrames_allOk, concludePowerOn, settleWait]

/-- Power-on frame `k` answered Err: no surface is created (R242). -/
theorem transmitPowerOn_errAt {s : State} {k : Nat} (hk : k < (powerOnFrames s.params).length) {rest : List Answer}
    (h : s.answersErrAt k rest) :
    transmitPowerOn s = respond .deviceInitFailed .none
      (((s.emit ((powerOnFrames s.params).take (k + 1)) rest).diag (.txFail k (powerOnFrames s.params)[k])).setLc
        .detached) := by
  simp [transmitPowerOn, h, sendFrames_errAt 0 _ k hk, concludePowerOn]

/-- The whole next state when every frame of INIT is answered Ok (R240, R244). -/
theorem transmitPowerOn_all_initFrames_ok {s : State} {rest : List Answer}
    (h : s.answersOk (initFrames s.params).length rest) :
    transmitPowerOn s = { s with
      phase := .idle, lc := .active, fb := some Memory.zeroed, busIn := rest,
      busOut := s.busOut ++ initFrames s.params, respOut := s.respOut ++ [⟨.ok, .none⟩] } := by
  rw [State.answersOk, initFrames, List.length_append, List.replicate_add, List.append_assoc] at h
  rw [transmitPowerOn_allOk h, transmit_allOk _ _ _ _ rest rfl, initFrames, ← List.append_assoc]
  rfl

/-- The whole next state when frame `k` of INIT is answered Err, be it a power-on frame or a frame of the flush: no
surface is left, and the event's index counts from the first power-on frame (R242, R300). -/
theorem transmitPowerOn_initFrame_err {s : State} {k : Nat} {f : Frame} {rest : List Answer} (hfb : s.fb = none)
    (hf : (initFrames s.params)[k]? = some f) (h : s.answersErrAt k rest) :
    transmitPowerOn s = { s with
      phase := .idle, lc := .detached, busIn := rest, busOut := s.busOut ++ (initFrames s.params).take (k + 1),
      diagOut := s.diagOut ++ [.txFail k f], respOut := s.respOut ++ [⟨.deviceInitFailed, .none⟩] } := by
  rcases Nat.lt_or_ge k (powerOnFrames s.params).length with powerOn | flush
  · rw [initFrames, List.getElem?_append_left powerOn, List.getElem?_eq_some_iff] at hf
    obtain ⟨_, rfl⟩ := hf
    rw [transmitPowerOn_errAt powerOn h, initFrames, List.take_append_of_le_length powerOn]
    rfl
  · obtain ⟨j, rfl⟩ := Nat.exists_eq_add_of_le flush
    rw [initFrames, List.getElem?_append_right flush, Nat.add_sub_cancel_left, List.getElem?_eq_some_iff] at hf
    obtain ⟨hj, rfl⟩ := hf
    rw [State.answersErrAt, List.replicate_add, List.append_assoc] at h
    rw [transmitPowerOn_allOk h, transmit_errAt _ _ _ _ j hj rest rfl, initFrames, Nat.add_assoc,
      List.take_length_add_append, ← List.append_assoc, hfb]
    rfl

/-- Settles O30: the surface that INIT creates is `Memory.zeroed`. -/
theorem initPowersOnAndCreatesTheZeroedSurface : Obligations.InitPowersOnAndCreatesTheZeroedSurface := by
  intro s rest idle detached hs
  have count : (initFrames s.params).length = s.params.chargePump.length + 75 := by
    simp [initFrames, powerOnFrames]
  refine ⟨Memory.zeroed, Memory.read_zeroed, ?_⟩
  rw [← count] at hs
  rw [exec_init_detached detached, transmitPowerOn_all_initFrames_ok (s := s.setLc .attaching) hs, idle]
  rfl

/-- Settles O31: `transmitPowerOn_initFrame_err`, whose end is Detached, where INIT began. -/
theorem initFailsCleanlyAtAnyFrame : Obligations.InitFailsCleanlyAtAnyFrame := by
  intro s k f rest idle detached absent hf hs
  rw [exec_init_detached detached, transmitPowerOn_initFrame_err (s := s.setLc .attaching) absent hf hs, idle, detached]
  rfl

end Sys2Proof.Proofs.InitSequence
end

section
/-! What INIT and BLANK answer while attached (R245, R256, R260, R286). -/
namespace Sys2Proof.Proofs.AttachedControl

open Sys2Proof Sys2Proof.Machine

/-- Check 3 of R292: INIT is turned away before any frame (R245). -/
theorem exec_init_attached {s : State} (h : s.attached) : exec .init s = .next (raise .illegalCommand s) :=
  if_neg fun detached => by simp [State.attached, detached] at h

/-- R256: the frame that a supported mode sends and the lifecycle state it asks for. -/
theorem exec_blank_supported {s : State} {mode : Byte} {f : Frame} {l : Lifecycle} (ha : s.attached)
    (h : (mode.toNat = 1 ∧ f = s.params.displayOff ∧ l = .blanked) ∨
      (mode.toNat = 0 ∧ f = s.params.displayOn ∧ l = .active)) :
    exec (.blank mode) s = .next (transmit (.blank l) 0 [f] s) := by
  rcases h with ⟨normal, rfl, rfl⟩ | ⟨unblank, rfl, rfl⟩
  · simp [exec, execBlank, whenAttached_attached ha, blankMode, zextByte, normal]
  · simp [exec, execBlank, whenAttached_attached ha, blankMode, zextByte, unblank]

/-- R286: the mode is checked before any effect. -/
theorem exec_blank_unsupported {s : State} {mode : Byte} (ha : s.attached) (h : 2 ≤ mode.toNat) :
    exec (.blank mode) s = .next (raise .unsupportedMode s) := by
  have not_normal : mode.toNat ≠ 1 := by omega
  have not_unblank : mode.toNat ≠ 0 := by omega
  simp only [exec, execBlank, whenAttached_attached ha, blankMode, zextByte, if_neg not_normal, if_neg not_unblank]

/-- Settles O32: `exec_init_attached`, the phase being idle before and after. -/
theorem initWhileAttachedIsIllegal : Obligations.InitWhileAttachedIsIllegal := by
  intro s idle attached
  rw [exec_init_attached attached, idle]
  rfl

/-- Settles O34: the one frame of a supported mode is answered Ok or Err, and no other mode sends a frame. -/
theorem blankChangesLcOnlyWhenItsFrameIsAnsweredOk : Obligations.BlankChangesLcOnlyWhenItsFrameIsAnsweredOk := by
  refine fun s mode idle attached =>
    ⟨fun f l rest supported => ⟨fun answer => ?ok, fun answer => ?err⟩, fun two_le => ?unsupported⟩
  case ok =>
    rw [exec_blank_supported attached supported, transmit_allOk _ _ _ _ rest answer, idle]
    rfl
  case err =>
    rw [exec_blank_supported attached supported, transmit_errAt _ _ [f] _ 0 Nat.zero_lt_one rest answer, idle]
    rfl
  case unsupported =>
    rw [exec_blank_unsupported attached two_le, idle]
    rfl

end Sys2Proof.Proofs.AttachedControl
end

section
/-! Check 4 of R292: while Detached, UnknownDevice is answered before any operand is looked at (R284, R251). -/
namespace Sys2Proof.Proofs.DetachedCommands

open Sys2Proof Sys2Proof.Machine

/-- Between two commands an exception changes the response port and nothing else (R290, R291). -/
theorem raise_of_idle {s : State} (idle : s.phase = .idle) (code : ResultCode) :
    raise code s = { s with respOut := s.respOut ++ [⟨code, .none⟩] } := by
  rw [raise, respond, idle]

/-- Every command but NOP and INIT is stopped by the check it opens with (R284). -/
theorem exec_detached {i : Instr} {s : State} (detached : s.lc = .detached) (hi : acceptedDetached i = false) :
    exec i s = .next (raise .unknownDevice s) := by
  cases i
  case nop | init => exact Bool.noConfusion hi
  case shutdown | blank => exact whenAttached_detached detached _
  all_goals exact withSurface_detached detached _

/-- Settles O35: `exec_detached`, the phase being idle before and after. -/
theorem detachedInstanceAnswersUnknownDevice : Obligations.DetachedInstanceAnswersUnknownDevice :=
  fun i s idle detached hi => by rw [exec_detached (i := i) detached hi, raise_of_idle idle]

end Sys2Proof.Proofs.DetachedCommands
end

section
/-! Check 5 of R292, while attached: operands out of range are turned away with the code of the command's check,
and a command whose operands are in range returns neither of these codes (R282, R286). -/
namespace Sys2Proof.Proofs.OperandChecks

open Sys2Proof Sys2Proof.Machine
open Sys2Proof.Proofs.AttachedControl Sys2Proof.Proofs.DetachedCommands

/-! ## Operands out of range -/

section
variable {s : State} {m : Memory} (ha : s.attached) (hm : s.fb = some m) {inRange : Bool}
  {accept : Memory → State} {code : ResultCode}
include ha hm

theorem withSurface_check_failed (h : inRange = false) :
    withSurface s (fun m => if inRange then accept m else raise code s) = .next (raise code s) := by
  rw [withSurface_attached ha hm, h, if_neg Bool.false_ne_true]

theorem withSurface_check_passed (h : inRange = true) :
    withSurface s (fun m => if inRange then accept m else raise code s) = .next (accept m) := by
  rw [withSurface_attached ha hm, if_pos h]

end

/-- Each check that can fail is the one its command makes before any effect (R282, R286). -/
theorem exec_operands_out_of_range {i : Instr} {s : State} {m : Memory} (ha : s.attached) (hm : s.fb = some m)
    (ho : operandsOk i = false) : exec i s = .next (raise (operandCode i) s) := by
  cases i
  case nop | fillRect | pageRead | flush | init | shutdown => exact Bool.noConfusion ho
  case copyArea =>
    simp only [operandsOk, Bool.and_assoc] at ho
    exact withSurface_check_failed ha hm (by simpa only [blockInside, Bool.and_assoc] using ho)
  case blank => exact exec_blank_unsupported ha (Nat.le_of_not_lt (of_decide_eq_false ho))
  case setPixel | getPixel | rawWrite | rawRead => exact withSurface_check_failed ha hm ho

/-! ## Operands in range -/

/-- The codes that a command ends with once its operands are accepted (R281, R283, R287, R288). -/
def acceptedCodes : List ResultCode := [.ok, .transportError, .deviceInitFailed, .illegalCommand]

/-- One response beyond those of `s` has an accepted code; a command that waits for an answer has returned none. -/
def AnswersAccepted (s t : State) : Prop := ∀ r, t.respOut = s.respOut ++ [r] → r.code ∈ acceptedCodes

theorem respond_answersAccepted {code : ResultCode} (h : code ∈ acceptedCodes) (data : RespData) {s s' : State}
    (hs : s'.respOut = s.respOut) : AnswersAccepted s (respond code data s') := by
  intro r hr
  rw [respond_respOut, hs, List.append_cancel_left_eq, List.singleton_inj] at hr
  rwa [← hr]

theorem endOk_answersAccepted (e : Ending) {s s' : State} (hs : s'.respOut = s.respOut) :
    AnswersAccepted s (endOk e s') := by
  cases e <;> exact respond_answersAccepted (by decide) _ hs

theorem endErr_answersAccepted (e : Ending) {s s' : State} (hs : s'.respOut = s.respOut) :
    AnswersAccepted s (endErr e s') := by
  cases e <;> exact respond_answersAccepted (by decide) _ hs

theorem awaitAnswer_answersAccepted (stage : Stage) (f : Frame) (queue : List Frame) (n : Nat) {s s' : State}
    (hs : s'.respOut = s.respOut) : AnswersAccepted s (awaitAnswer stage f queue n s') := by
  intro r hr
  rw [awaitAnswer_respOut, hs] at hr
  exact absurd hr (by simp)

/-- Frames end a command by the bus alone: all Ok, an Err, or a wait (R206, R208). -/
theorem transmit_answersAccepted (e : Ending) (n : Nat) (fs : List Frame) {s s' : State}
    (hs : s'.respOut = s.respOut) : AnswersAccepted s (transmit e n fs s') := by
  rcases transmit_cases e n fs s' with ⟨_, _, h⟩ | ⟨_, _, _, _, h⟩ | ⟨_, _, _, h⟩ <;> rw [h]
  · exact endOk_answersAccepted e hs
  · exact endErr_answersAccepted e hs
  · exact awaitAnswer_answersAccepted _ _ _ _ hs

/-- A command whose operands are in range answers at once with Ok (INIT, with IllegalCommand), or ends by its frames. -/
theorem exec_operands_in_range {i : Instr} {s : State} {m : Memory} (ha : s.attached) (hm : s.fb = some m)
    (ho : operandsOk i = true) : ∃ t, exec i s = .next t ∧ AnswersAccepted s t := by
  by_cases hf : flushes i = true
  · exact ⟨_, exec_flushes hf ho ha hm, transmit_answersAccepted _ _ _ rfl⟩
  cases i
  case fillRect | copyArea | setPixel | rawWrite | flush => exact absurd rfl hf
  case nop => exact ⟨_, rfl, respond_answersAccepted (by decide) _ rfl⟩
  case getPixel | rawRead =>
    exact ⟨_, withSurface_check_passed ha hm ho, respond_answersAccepted (by decide) _ rfl⟩
  case pageRead p =>
    refine ⟨_, withSurface_attached ha hm _, ?_⟩
    split <;> exact respond_answersAccepted (by decide) _ rfl
  case init => exact ⟨_, exec_init_attached ha, respond_answersAccepted (by decide) _ rfl⟩
  case shutdown => exact ⟨_, whenAttached_attached ha _, transmit_answersAccepted _ _ _ rfl⟩
  case blank mode =>
    have supported : mode.toNat = 1 ∨ mode.toNat = 0 := by
      simp only [operandsOk, decide_eq_true_eq] at ho
      omega
    rcases supported with normal | unblank
    · exact ⟨_, exec_blank_supported ha (.inl ⟨normal, rfl, rfl⟩), transmit_answersAccepted _ _ _ rfl⟩
    · exact ⟨_, exec_blank_supported ha (.inr ⟨unblank, rfl, rfl⟩), transmit_answersAccepted _ _ _ rfl⟩

/-- Settles O36: `exec_operands_out_of_range`, and neither code is one of `acceptedCodes`. -/
theorem operandsOutOfRangeAreTurnedAway : Obligations.OperandsOutOfRangeAreTurnedAway := by
  rintro i s m ⟨idle, attached, surface, -⟩
  refine ⟨fun ho => ?outOfRange, fun ho t r run response => ?inRange⟩
  case outOfRange => rw [exec_operands_out_of_range attached surface ho, raise_of_idle idle]
  case inRange =>
    obtain ⟨t', run', accepted⟩ := exec_operands_in_range attached surface ho
    obtain rfl : t' = t := by simpa [run'] using run
    have neither : ∀ code ∈ acceptedCodes, code ≠ .outOfBounds ∧ code ≠ .unsupportedMode := by decide
    exact neither r.code (accepted r response)

end Sys2Proof.Proofs.OperandChecks
end

section
/-! What a step does when the reset input is asserted (R320, R322). -/

namespace Sys2Proof.Proofs.Reset

open Sys2Proof Sys2Proof.Machine

/-- An asserted reset wins over whatever stands on the command port or is in progress: nothing is fetched or run. -/
theorem step_of_resetIn {s : State} (asserted : s.resetIn = true) : step s = .next (afterReset s) := by
  simp [step, asserted]

/-- Settles O13: the step is `afterReset`, which puts the block's own state back and keeps what the ports have sent. -/
theorem resetAbandonsTheCommand : Obligations.ResetAbandonsTheCommand := fun s asserted =>
  ⟨afterReset s, step_of_resetIn asserted, afterReset_lc s, afterReset_fb s, afterReset_phase s, afterReset_params s,
    afterReset_busOut s, afterReset_respOut s, afterReset_diagOut s⟩

end Sys2Proof.Proofs.Reset
end

section
/-! Decode and encode undo each other, and the opcode map with its reserved bits is what the decoder accepts (R92, R99,
R103, R110). -/
namespace Sys2Proof.Proofs.RoundTrip

open Sys2Proof Sys2Proof.Machine
open Sys2Proof.Proofs.Stream

/-! ## Decoding an encoded command -/

/-- `Laws.EncodedWord` of every command. -/
theorem encodedWord (i : Instr) : Laws.EncodedWord.Statement i := by
  cases i
  case nop => exact Laws.EncodedWord.nop
  case fillRect => exact Laws.EncodedWord.fillRect ..
  case copyArea => exact Laws.EncodedWord.copyArea ..
  case setPixel => exact Laws.EncodedWord.setPixel ..
  case getPixel => exact Laws.EncodedWord.getPixel ..
  case rawWrite => exact Laws.EncodedWord.rawWrite ..
  case rawRead => exact Laws.EncodedWord.rawRead ..
  case pageRead => exact Laws.EncodedWord.pageRead ..
  case flush => exact Laws.EncodedWord.flush
  case init => exact Laws.EncodedWord.init
  case shutdown => exact Laws.EncodedWord.shutdown
  case blank => exact Laws.EncodedWord.blank ..

/-- A command is well formed when its payload is as short as its 16-bit `len` field can say (R94, R120). -/
theorem wellFormed_iff {i : Instr} : i.wellFormed = true ↔ i.payload.length < 65536 := by
  cases i
  case rawWrite off payload => exact decide_eq_true_iff.trans Nat.lt_succ_iff.symm
  all_goals exact iff_of_true rfl (Nat.zero_lt_succ _)

/-- What a word announces is a 16-bit field's value, or 0 (R111). -/
theorem payloadLen_lt (cw : CmdWord) : payloadLen cw < 65536 := by
  unfold payloadLen
  split
  · exact (fieldHalf cw 24).isLt
  · exact Nat.zero_lt_succ _

/-- Settles O2: the encoding is a word and the payload it announces, and the word decodes to the command. -/
theorem decodeOfEncodeIsTheCommand : Obligations.DecodeOfEncodeIsTheCommand := by
  intro i rest wf
  obtain ⟨decoded, announced⟩ := encodedWord i
  rw [Nat.mod_eq_of_lt (wellFormed_iff.1 wf)] at announced
  exact decodeStream_eq_command_iff.2
    ⟨encodeWord i, i.payload, List.append_assoc _ _ _, announced.symm, decoded.symm⟩

/-! ## Encoding a decoded word -/

/-- The reserved bits of a format as one field (R92). -/
theorem reserved_field {cw : CmdWord} {lo : Nat} (clear : reservedClear cw lo = true) (n : Nat) :
    0#n = cw.extractLsb' lo n := by
  apply BitVec.eq_of_getLsbD_eq
  intro i _
  rw [BitVec.getLsbD_extractLsb', getLsbD_of_reservedClear clear (Nat.le_add_right lo i), Bool.and_false,
    BitVec.getLsbD_zero]

/-- A 1-bit field as a bit vector. -/
theorem ofBool_fieldBit (cw : CmdWord) (i : Nat) : BitVec.ofBool (fieldBit cw i) = cw.extractLsb' i 1 := by
  apply BitVec.eq_of_getLsbD_eq
  intro j hj
  obtain rfl : j = 0 := by omega
  simp [fieldBit]

/-- The announced length of a RAW_WRITE word is its field `len` (R110). -/
theorem ofNat_length_payload {cw : CmdWord} {payload : List Byte} (op : fieldByte cw 0 = rawWriteOp)
    (length : payload.length = payloadLen cw) : BitVec.ofNat 16 payload.length = fieldHalf cw 24 := by
  rw [length, payloadLen, if_pos op, BitVec.ofNat_toNat, BitVec.setWidth_eq]

/-- A word that is not RAW_WRITE's has no payload (R110, R111). -/
theorem payload_eq_nil {cw : CmdWord} {payload : List Byte} (op : fieldByte cw 0 ≠ rawWriteOp)
    (length : payload.length = payloadLen cw) : payload = [] :=
  List.eq_nil_of_length_eq_zero (length.trans (payloadLen_of_op op))

/-- The fields of a format, its reserved bits and its opcode are the whole word, in the order in which the encoder
appends them; of the formats only RAW_WRITE's has a payload (R92, R110). -/
theorem encodeWord_payload_of_decodeWord {cw : CmdWord} {payload : List Byte} {i : Instr}
    (length : payload.length = payloadLen cw) (decoded : decodeWord cw payload = .instr i) :
    encodeWord i = cw ∧ i.payload = payload := by
  rcases decodeWord_instr decoded with ⟨op, clear, rfl⟩ | ⟨op, clear, rfl⟩ | ⟨op, clear, rfl⟩ | ⟨op, clear, rfl⟩ |
    ⟨op, clear, rfl⟩ | ⟨op, clear, rfl⟩ | ⟨op, clear, rfl⟩ | ⟨op, clear, rfl⟩ | ⟨op, clear, rfl⟩ | ⟨op, clear, rfl⟩ |
    ⟨op, clear, rfl⟩ | ⟨op, clear, rfl⟩
  case inr.inr.inr.inr.inr.inl =>
    refine ⟨?_, rfl⟩
    rw [encodeWord, ofNat_length_payload op length, ← op, reserved_field clear]
    simp (disch := omega) only [fieldByte, fieldHalf, BitVec.extractLsb'_append_extractLsb'_eq_extractLsb']
    exact BitVec.extractLsb'_eq_self
  all_goals
    refine ⟨?_, (payload_eq_nil (op ▸ by decide) length).symm⟩
    rw [encodeWord, ← op, reserved_field clear]
    simp (disch := omega) only [fieldByte, fieldHalf, ofBool_fieldBit,
      BitVec.extractLsb'_append_extractLsb'_eq_extractLsb']
    exact BitVec.extractLsb'_eq_self

/-- Settles O3: the length of a payload that its word announces is a 16-bit field's value, so the command is well formed. -/
theorem encodeOfDecodeIsTheWord : Obligations.EncodeOfDecodeIsTheWord := by
  intro cw payload i length decoded
  obtain ⟨word, own⟩ := encodeWord_payload_of_decodeWord length decoded
  exact ⟨word, own, wellFormed_iff.2 (own ▸ length ▸ payloadLen_lt cw)⟩

/-! ## What the decoder accepts -/

/-- The table of used bits, opcode by opcode in the decoder's order (R99, R103). -/
theorem usedBits_toNat : ∀ op : Byte, usedBits op.toNat =
    if op = 0x01#8 then some 8 else if op = 0x10#8 then some 41 else if op = 0x11#8 then some 56
    else if op = 0x20#8 then some 25 else if op = 0x21#8 then some 24 else if op = 0x30#8 then some 40
    else if op = 0x31#8 then some 40 else if op = 0x32#8 then some 16 else if op = 0x40#8 then some 8
    else if op = 0x50#8 then some 8 else if op = 0x51#8 then some 8 else if op = 0x52#8 then some 16
    else none := by decide

theorem toNat_opcode (cw : CmdWord) : (fieldByte cw 0).toNat = cw.toNat % 256 := by
  simp [fieldByte]

/-- `need` accepts exactly the words whose reserved bits are 0 (R103). -/
theorem need_accepts_iff (cw : CmdWord) (n : Nat) (j : Instr) :
    (∃ i, need cw n j = .instr i) ↔ cw.toNat < 2 ^ n := by
  rw [← reservedClear_iff]
  exact ⟨fun ⟨_, h⟩ => (need_instr h).1, fun clear => ⟨j, if_pos clear⟩⟩

/-- An entry of the table of used bits, and what a word decodes to by it (R103). -/
def Agrees (cw : CmdWord) : Option Nat → Decoded → Prop
  | some n, d => ∃ i, d = need cw n i
  | none, d => ∃ r, d = .illegal r

/-- One opcode of the table and the decoder's arm for it. -/
theorem Agrees.ite {cw : CmdWord} {c : Prop} [Decidable c] (n : Nat) (i : Instr) {entry : Option Nat} {d : Decoded}
    (others : Agrees cw entry d) : Agrees cw (if c then some n else entry) (if c then need cw n i else d) := by
  split
  · exact ⟨i, rfl⟩
  · exact others

/-- The decoder asks of a word what the table says of its opcode (R103). -/
theorem agrees_decodeWord (cw : CmdWord) (payload : List Byte) :
    Agrees cw (usedBits (cw.toNat % 256)) (decodeWord cw payload) := by
  rw [← toNat_opcode, usedBits_toNat, decodeWord]
  iterate 12 refine Agrees.ite _ _ ?_
  exact ⟨_, rfl⟩

/-- Settles O4: an opcode in the table leaves the reserved bits to decide, and any other is Illegal. -/
theorem decodeAcceptsExactlyTheOpcodeMap : Obligations.DecodeAcceptsExactlyTheOpcodeMap := by
  intro cw payload
  have agrees := agrees_decodeWord cw payload
  cases entry : usedBits (cw.toNat % 256) with
  | some n =>
    rw [entry] at agrees
    obtain ⟨j, decoded⟩ := agrees
    simp [decoded, need_accepts_iff]
  | none =>
    rw [entry] at agrees
    obtain ⟨r, decoded⟩ := agrees
    simp [decoded]

end Sys2Proof.Proofs.RoundTrip
end

section
/-! Operands as the numbers written: a command's line assembles exactly when its fields hold its numbers (R94, R120). -/
namespace Sys2Proof.Proofs.Operands

open Sys2Proof Sys2Proof.Machine

/-! ## One operand -/

/-- The value of an 8-bit field is any number below 256, and the field holds no other (R94). -/
theorem exists_byte_iff {n : Nat} {p : Byte → Prop} : (∃ b : Byte, b.toNat = n ∧ p b) ↔ n < 256 ∧ p (toByte n) := by
  constructor
  · rintro ⟨b, rfl, hb⟩
    exact ⟨b.isLt, by rwa [toByte, BitVec.ofNat_toNat, BitVec.setWidth_eq]⟩
  · rintro ⟨fits, hb⟩
    exact ⟨toByte n, Nat.mod_eq_of_lt fits, hb⟩

/-- The value of a 16-bit field is any number below 65536, and the field holds no other (R94). -/
theorem exists_half_iff {n : Nat} {p : Half → Prop} :
    (∃ b : Half, b.toNat = n ∧ p b) ↔ n < 65536 ∧ p (toHalf n) := by
  constructor
  · rintro ⟨b, rfl, hb⟩
    exact ⟨b.isLt, by rwa [toHalf, BitVec.ofNat_toNat, BitVec.setWidth_eq]⟩
  · rintro ⟨fits, hb⟩
    exact ⟨toHalf n, Nat.mod_eq_of_lt fits, hb⟩

/-- The values of a payload are any list of numbers below 256 (R120). -/
theorem exists_bytes_iff {ns : List Nat} {p : List Byte → Prop} :
    (∃ bs : List Byte, bs.map BitVec.toNat = ns ∧ p bs) ↔ (∀ n ∈ ns, n < 256) ∧ p (ns.map toByte) := by
  constructor
  · rintro ⟨bs, rfl, hbs⟩
    have back : (bs.map BitVec.toNat).map toByte = bs := by simp [toByte, Function.comp_def]
    exact ⟨by simpa using fun b _ => b.isLt, back.symm ▸ hbs⟩
  · rintro ⟨fit, hbs⟩
    refine ⟨ns.map toByte, ?_, hbs⟩
    rw [List.map_map]
    exact (List.map_congr_left fun n hn => Nat.mod_eq_of_lt (fit n hn)).trans (List.map_id ns)

/-! ## One command -/

@[simp] theorem allBelow_eq_true {bound : Nat} {ns : List Nat} : allBelow bound ns = true ↔ ∀ n ∈ ns, n < bound := by
  simp [allBelow]

/-- A line of one command assembles to it when its operands are in range, and to nothing else. -/
@[simp] theorem inRange_eq_commands_iff {ok : Bool} {i j : Instr} :
    inRange ok j = .commands [i] ↔ ok = true ∧ i = j := by
  cases ok <;> simp [inRange, eq_comm]

/-- It is the operand error exactly when they are not. -/
@[simp] theorem inRange_eq_operandRange_iff {ok : Bool} {j : Instr} :
    inRange ok j = .error .operandRange ↔ ¬ok = true := by
  cases ok <;> simp [inRange]

theorem assemble_rawWrite {bytes : List Nat} (h : bytes.length ≤ 65535) (off : Nat) :
    (AsmLine.rawWrite off bytes).assemble =
      inRange (off < 65536 && allBelow 256 bytes) (.rawWrite (toHalf off) (bytes.map toByte)) :=
  if_pos h

theorem assemble_rawWrite_too_long {bytes : List Nat} (h : ¬bytes.length ≤ 65535) (off : Nat) :
    (AsmLine.rawWrite off bytes).assemble = .error .listLength :=
  if_neg h

/-- A RAW_WRITE line fixes its offset, its bytes and, by their number, its length (R120). -/
theorem assemble_rawWrite_eq_commands_iff (off : Nat) (bytes : List Nat) (i : Instr) :
    (AsmLine.rawWrite off bytes).assemble = .commands [i] ↔
      ∃ (off' : Half) (pl : List Byte), off'.toNat = off ∧ pl.map BitVec.toNat = bytes ∧ pl.length ≤ 65535 ∧
        i = .rawWrite off' pl := by
  simp only [exists_and_left, exists_bytes_iff, exists_half_iff, List.length_map]
  by_cases length : bytes.length ≤ 65535
  · simp [assemble_rawWrite length, length, and_assoc]
  · simp [assemble_rawWrite_too_long length, length]

/-- Settles O6: each line is `inRange` of its operands, whose ranges are those of the `exists_…_iff` lemmas; only RAW_WRITE
looks at the length of its list first. -/
theorem assembledOperandsAreTheWrittenNumbers : Obligations.AssembledOperandsAreTheWrittenNumbers := by
  refine ⟨fun x y w h c i => ?_, fun x y w h c => ?_, fun sx sy dx dy w h i => ?_, fun sx sy dx dy w h => ?_,
    fun x y v i => ?_, fun x y v => ?_, fun x y i => ?_, fun x y => ?_, assemble_rawWrite_eq_commands_iff,
    fun off bytes length => ?rawWriteOperand, fun off bytes length => ?rawWriteList, fun off len i => ?_,
    fun off len => ?_, fun p i => ?_, fun p => ?_, fun mode i => ?_, fun mode => ?_⟩
  case rawWriteOperand => simp [assemble_rawWrite length]
  case rawWriteList => exact assemble_rawWrite_too_long (Nat.not_le_of_lt length) off
  all_goals simp [AsmLine.assemble, exists_byte_iff, exists_half_iff, and_assoc]

end Sys2Proof.Proofs.Operands
end

section
/-! One step: what the block takes from its ports, and that a payload may come in pieces (R43, R73, R111, R288, R292). -/
namespace Sys2Proof.Proofs.Steps

open Sys2Proof Sys2Proof.Machine
open Sys2Proof.Proofs.Stream

variable {s : State}

/-! ## The step by what was fetched -/

theorem step_of_wait (released : s.resetIn = false) {t : State} (h : fetch s = .wait t) : step s = .next t := by
  simp [step, released, h]

theorem step_of_instr (released : s.resetIn = false) {i : Instr} {t : State} (h : fetch s = .run (.instr i) t) :
    step s = exec i t := by
  simp [step, released, h]

theorem step_of_illegal (released : s.resetIn = false) {r : Reject} {t : State} (h : fetch s = .run (.illegal r) t) :
    step s = .next (execIllegal t) := by
  simp [step, released, h]

/-- A step that fetches the same does the same. -/
theorem step_congr {t : State} (hs : s.resetIn = false) (ht : t.resetIn = false) (h : fetch s = fetch t) :
    step s = step t := by
  simp [step, hs, ht, h]

/-! ## What is fetched -/

theorem fetch_of_idle_word (idle : s.phase = .idle) {cw : CmdWord} {rest : List Byte}
    (port : s.cmdIn = wordBytes cw ++ rest) : fetch s = takePayload cw [] (payloadLen cw) (s.setCmdIn rest) := by
  simp [fetch, idle, port, takeWord_wordBytes]

theorem fetch_of_no_word (idle : s.phase = .idle) (none_there : takeWord s.cmdIn = none) : fetch s = .wait s := by
  simp [fetch, idle, none_there]

theorem fetch_of_payload {cw : CmdWord} {got : List Byte} {due : Nat} (phase : s.phase = .payload cw got due) :
    fetch s = takePayload cw got due s := by
  simp [fetch, phase]

theorem fetch_of_bus {job : Job} (phase : s.phase = .bus job) : fetch s = .wait (resume job s) := by
  simp [fetch, phase]

theorem takeWord_of_short {bytes : List Byte} (short : bytes.length < 8) : takeWord bytes = none := by
  cases h : takeWord bytes with
  | none => rfl
  | some taken =>
    have length := (takeWord_some h).1
    omega

theorem fetch_of_short (idle : s.phase = .idle) (short : s.cmdIn.length < 8) : fetch s = .wait s :=
  fetch_of_no_word idle (takeWord_of_short short)

/-- Payload bytes still due: those that have come are held, and the count goes down by them (R43, R111). -/
theorem takePayload_of_due {got : List Byte} {due : Nat} (cw : CmdWord) (few : s.cmdIn.length < due) :
    takePayload cw got due s =
      .wait { s with phase := .payload cw (got ++ s.cmdIn) (due - s.cmdIn.length), cmdIn := [] } :=
  if_pos few

/-- The last payload byte has come: the command is decoded with the whole payload (R103, R110). -/
theorem takePayload_of_enough {got : List Byte} {due : Nat} (cw : CmdWord) (enough : due ≤ s.cmdIn.length) :
    takePayload cw got due s =
      .run (decodeWord cw (got ++ s.cmdIn.take due)) { s with phase := .idle, cmdIn := s.cmdIn.drop due } :=
  if_neg (Nat.not_lt_of_le enough)

/-- A whole command at the front of the port is taken, with exactly its bytes (R103, R110, R111). -/
theorem fetch_of_command (idle : s.phase = .idle) {d : Decoded} {rest : List Byte}
    (front : decodeStream s.cmdIn = .command d rest) : fetch s = .run d { s with cmdIn := rest } := by
  obtain ⟨cw, p, port, length, rfl⟩ := decodeStream_eq_command_iff.1 front
  rw [fetch_of_idle_word idle port, takePayload_of_enough cw (by simp [← length])]
  simp [← length, State.setCmdIn, idle]

/-- The payload phase takes what the word's phase takes when the bytes it holds are put back on the port. -/
theorem takePayload_put_back (cw : CmdWord) (got : List Byte) (due : Nat) (s : State) :
    takePayload cw got due s =
      takePayload cw [] (got.length + due) { s with phase := .idle, cmdIn := got ++ s.cmdIn } := by
  by_cases few : s.cmdIn.length < due
  · rw [takePayload_of_due cw few, takePayload_of_due cw (by simpa using few)]
    simp [Nat.add_sub_add_left]
  · have enough := Nat.le_of_not_lt few
    rw [takePayload_of_enough cw enough, takePayload_of_enough cw (by simpa using enough)]
    simp [List.take_length_add_append]

/-! ## The obligations -/

/-- Settles O8: `fetch_of_command`. -/
theorem stepRunsTheDecodedCommand : Obligations.StepRunsTheDecodedCommand :=
  fun _ _ _ reset idle front => step_of_instr reset (fetch_of_command idle front)

/-- Settles O9: `fetch_of_command`; what an Illegal word does is an exception and nothing else (R288, R291). -/
theorem illegalWordOnlyAnswersIllegalCommand : Obligations.IllegalWordOnlyAnswersIllegalCommand := by
  intro s r rest reset idle front
  rw [step_of_illegal reset (fetch_of_command idle front), execIllegal, DetachedCommands.raise_of_idle]
  exact idle

/-- Settles O10: in the payload phase the step is that of the word with all its bytes there, `takePayload_put_back`. -/
theorem payloadMayComeInPieces : Obligations.PayloadMayComeInPieces := by
  refine ⟨fun s cw p reset idle few port => ?word, fun s cw got due reset phase count => ⟨fun few => ?wait, ?atOnce⟩⟩
  case word =>
    refine step_of_wait reset ?_
    rw [fetch_of_idle_word idle port]
    exact takePayload_of_due cw few
  case wait =>
    refine step_of_wait reset ?_
    rw [fetch_of_payload phase]
    exact takePayload_of_due cw few
  case atOnce =>
    refine step_congr reset reset ?_
    rw [fetch_of_payload phase, fetch_of_idle_word rfl rfl, takePayload_put_back, count]
    rfl

/-- Settles O12: each of the three waits fetches the state as it is. -/
theorem nothingHappensWithoutInput : Obligations.NothingHappensWithoutInput := by
  rintro s reset (⟨⟨job, phase⟩, noAnswer⟩ | ⟨⟨cw, got, due, phase, pending⟩, noByte⟩ | ⟨idle, short⟩)
  · refine step_of_wait reset ?_
    rw [fetch_of_bus phase]
    simp [resume, noAnswer]
  · refine step_of_wait reset ?_
    rw [fetch_of_payload phase, takePayload_of_due cw (by simpa [noByte] using pending)]
    have unchanged : { s with phase := .payload cw got due, cmdIn := [] } = s := by rw [← phase, ← noByte]
    simpa [noByte] using unchanged
  · exact step_of_wait reset (fetch_of_short idle short)

end Sys2Proof.Proofs.Steps
end

section
/-! Single commands: NOP, the three reads of the surface, FLUSH and SHUTDOWN (R135, R145, R150, R220, R250, R265), and the
states in which exec stops by name (R30, R33). -/
namespace Sys2Proof.Proofs.SingleCommands

open Sys2Proof Sys2Proof.Machine
open Sys2Proof.Proofs.Flush Sys2Proof.Proofs.SurfacePrimitives Sys2Proof.Proofs.OperandChecks

/-! ## NOP and the reads -/

/-- Between two commands a response changes the response port and nothing else. -/
theorem respond_of_idle {s : State} (idle : s.phase = .idle) (code : ResultCode) (data : RespData) :
    respond code data s = { s with respOut := s.respOut ++ [⟨code, data⟩] } := by
  rw [respond, idle]

/-- Settles O15: NOP is its response. -/
theorem nopAnswersOkAndChangesNothing : Obligations.NopAnswersOkAndChangesNothing :=
  fun _ idle => congrArg Host.Outcome.next (respond_of_idle idle .ok .none)

/-- Settles O16: GET_PIXEL is its bounds check and its response. -/
theorem getPixelAnswersThePixel : Obligations.GetPixelAnswersThePixel := by
  rintro s m x y ⟨idle, attached, surface, -⟩ hx hy
  have inside : inSurface (zextByte x) (zextByte y) = true := by simp [inSurface, hx, hy]
  rw [exec, execGetPixel, withSurface_check_passed attached surface inside, respond_of_idle idle]
  rfl

/-- Settles O17: the bytes are `memRead` of the clamped length. -/
theorem rawReadAnswersTheClampedBytes : Obligations.RawReadAnswersTheClampedBytes := by
  rintro s m off len ⟨idle, attached, surface, -⟩ hoff
  have inside : inBuffer (zextHalf off) = true := decide_eq_true hoff
  refine ⟨memRead m off.toNat (clampLen off.toNat len.toNat), memRead_length _ _ _, fun j hj => ?_, ?_⟩
  · rw [memRead_length] at hj
    rw [memRead_getElem?, if_pos hj]
  · rw [exec, execRawRead, withSurface_check_passed attached surface inside, respond_of_idle idle]

/-- From page 8 on there is no record, and the index does not move (R150). -/
theorem exec_pageRead_beyond {s : State} {m : Memory} (attached : s.attached) (surface : s.fb = some m) {p : Byte}
    (beyond : ¬p.toNat < Config.pages) : exec (.pageRead p) s = .next (respond .ok (.page [] p.toNat) s) := by
  simp only [exec, execPageRead, withSurface_attached attached surface, if_neg beyond]

/-- Settles O18: the two answers of PAGE_READ, `exec_pageRead` and `exec_pageRead_beyond`. -/
theorem pageReadAnswersTheRecord : Obligations.PageReadAnswersTheRecord := by
  rintro s m p ⟨idle, attached, surface, -⟩
  by_cases page : p.toNat < Config.pages
  · refine ⟨memRead m (p.toNat * Config.pageBytes) Config.pageBytes, p.toNat + 1,
      fun _ => ⟨memRead_length _ _ _, rfl, fun j hj => ?_⟩, fun beyond => absurd page (Nat.not_lt_of_le beyond), ?_⟩
    · rw [memRead_getElem?, if_pos hj]
    · rw [exec_pageRead attached surface page, respond_of_idle idle]
  · refine ⟨[], p.toNat, fun inside => absurd inside page, fun _ => ⟨rfl, rfl⟩, ?_⟩
    rw [exec_pageRead_beyond attached surface page, respond_of_idle idle]

/-! ## FLUSH and SHUTDOWN -/

/-- Settles O24: FLUSH is the flush of the surface as it is, without an event. -/
theorem flushSendsTheSurfaceAndChangesNothing : Obligations.FlushSendsTheSurfaceAndChangesNothing := by
  intro s m rest ready answers
  have ⟨_, _, surface, _⟩ := ready
  simpa [surfaceEffect, eventsBefore, flushData, ← surface] using
    exec_flushes_allOk (i := .flush) rfl rfl ready answers

/-- R250: SHUTDOWN sends its one frame while Detaching. -/
theorem exec_shutdown_attached {s : State} (attached : s.attached) :
    exec .shutdown s = .next (transmit .shutdown 0 [s.params.displayOff] (s.setLc .detaching)) :=
  whenAttached_attached attached _

/-- Settles O33: the one frame is answered Ok or Err, and the surface is released either way. -/
theorem shutdownAlwaysReleasesAndAnswersOk : Obligations.ShutdownAlwaysReleasesAndAnswersOk := by
  intro s a rest idle attached answers
  rw [exec_shutdown_attached attached]
  cases a with
  | ok =>
    have noEvent : ¬Answer.ok = .err := by decide
    rw [transmit_allOk _ _ [s.params.displayOff] (s.setLc .detaching) rest answers, idle, if_neg noEvent, List.append_nil]
    rfl
  | err =>
    rw [transmit_errAt _ _ [s.params.displayOff] (s.setLc .detaching) 0 Nat.zero_lt_one rest answers, idle]
    rfl

/-! ## Stops -/

theorem whenAttached_in_progress {s : State} (busy : s.lc = .attaching ∨ s.lc = .detaching)
    (k : Host.Outcome State Fault Refusal) : whenAttached s k = .fault .commandInProgress := by
  rcases busy with h | h <;> simp [whenAttached, h]

theorem withSurface_absent {s : State} (attached : s.attached) (absent : s.fb = none) (k : Memory → State) :
    withSurface s k = .fault .surfaceAbsent := by
  rw [withSurface, whenAttached_attached attached, absent]

/-- Settles O37: every command but NOP and INIT opens with check 4 of R292, and all of these but SHUTDOWN and BLANK with its
form for the surface. -/
theorem statesThatTheSpecExcludesStopByName : Obligations.StatesThatTheSpecExcludesStopByName := by
  refine fun i s guarded => ⟨fun busy => ?inProgress, fun attached absent notShutdown notBlank => ?absent⟩
  case inProgress =>
    cases i
    case nop | init => exact Bool.noConfusion guarded
    all_goals exact whenAttached_in_progress busy _
  case absent =>
    cases i
    case nop | init => exact Bool.noConfusion guarded
    case shutdown => exact absurd rfl notShutdown
    case blank mode => exact absurd rfl (notBlank mode)
    all_goals exact withSurface_absent attached absent _

end Sys2Proof.Proofs.SingleCommands
end

section
/-! What a step can come to, said once: a reset, a wait, an Illegal word or a command (R73, R111, R292, R320). -/
namespace Sys2Proof.Proofs.StepCases

open Sys2Proof Sys2Proof.Machine
open Sys2Proof.Proofs.Stream Sys2Proof.Proofs.Steps Sys2Proof.Proofs.Reset

/-- The payload bytes that have come and those still due are as many as the word calls for (R43, R111). -/
def Counted : Phase → Prop
  | .payload cw got due => got.length + due = payloadLen cw
  | .idle => True
  | .bus _ => True

/-- What a look at the ports of `s` comes to. -/
inductive Fetched (s : State) : Fetch → Prop
  /-- A command waits for its answer, and goes on if it has come. -/
  | resumed (job : Job) (phase : s.phase = .bus job) : Fetched s (.wait (resume job s))
  /-- No whole word is on the port. -/
  | nothing : Fetched s (.wait s)
  /-- Payload bytes are still due. -/
  | pending (cw : CmdWord) (got : List Byte) (due : Nat) (free : ∀ job, s.phase ≠ .bus job) (some_due : 1 ≤ due)
      (counted : Counted s.phase → Counted (.payload cw got due)) :
      Fetched s (.wait { s with phase := .payload cw got due, cmdIn := [] })
  /-- A whole command was taken. -/
  | whole (d : Decoded) (rest : List Byte) (free : ∀ job, s.phase ≠ .bus job) :
      Fetched s (.run d { s with phase := .idle, cmdIn := rest })

/-- The payload that is taken from `bytes` for the word `cw`, `got` being there and `due` still due. -/
theorem fetched_takePayload {s : State} (free : ∀ job, s.phase ≠ .bus job) {cw : CmdWord} {got : List Byte} {due : Nat}
    (counted : Counted s.phase → Counted (.payload cw got due)) (bytes : List Byte) :
    Fetched s (takePayload cw got due (s.setCmdIn bytes)) := by
  by_cases few : bytes.length < due
  · rw [takePayload_of_due cw few]
    refine .pending cw (got ++ bytes) (due - bytes.length) free (by omega) fun before => ?_
    have now : got.length + due = payloadLen cw := counted before
    simp only [Counted, List.length_append]
    omega
  · rw [takePayload_of_enough cw (Nat.le_of_not_lt few)]
    exact .whole _ _ free

theorem fetched_fetch (s : State) : Fetched s (fetch s) := by
  cases phase : s.phase with
  | bus job =>
    rw [fetch_of_bus phase]
    exact .resumed job phase
  | payload cw got due =>
    rw [fetch_of_payload phase]
    exact fetched_takePayload (by simp [phase]) (by simp [phase]) s.cmdIn
  | idle =>
    cases word : takeWord s.cmdIn with
    | none =>
      rw [fetch_of_no_word phase word]
      exact .nothing
    | some taken =>
      obtain ⟨cw, rest⟩ := taken
      rw [fetch_of_idle_word phase (takeWord_eq_some_iff.1 word)]
      exact fetched_takePayload (got := []) (by simp [phase]) (fun _ => Nat.zero_add (payloadLen cw)) rest

/-- Everything a step can answer with a next state. -/
theorem step_next {s t : State} (run : step s = .next t) :
    t = afterReset s ∨ Fetched s (.wait t) ∨
      ∃ d u, Fetched s (.run d u) ∧
        ((∃ r, d = .illegal r ∧ t = execIllegal u) ∨ ∃ i, d = .instr i ∧ exec i u = .next t) := by
  have fetched := fetched_fetch s
  unfold step at run
  split at run
  · exact .inl (Host.Outcome.next.inj run).symm
  · refine .inr ?_
    split at run
    · next h => exact .inl ((Host.Outcome.next.inj run) ▸ h ▸ fetched)
    · next r u h => exact .inr ⟨_, u, h ▸ fetched, .inl ⟨r, rfl, (Host.Outcome.next.inj run).symm⟩⟩
    · next i u h => exact .inr ⟨_, u, h ▸ fetched, .inr ⟨i, rfl, run⟩⟩

end Sys2Proof.Proofs.StepCases
end

section
/-! A run of frames and what its command does with the answers, as one operation over every stage (R206, R208, R240): the
last run of a command, INIT's power-on frames, and the frames that a waiting command still has to send. -/
namespace Sys2Proof.Proofs.FrameRuns

open Sys2Proof Sys2Proof.Machine

/-- Send `frames` with the answers `answers` at hand, and go on by how that ended. -/
def sendThen (stage : Stage) (nsent : Nat) (frames : List Frame) (answers : List Answer) (s : State) : State :=
  conclude stage (sendFrames nsent frames answers).result
    (s.emit (sendFrames nsent frames answers).sent (sendFrames nsent frames answers).rest)

theorem transmit_eq_sendThen (e : Ending) (nsent : Nat) (frames : List Frame) (s : State) :
    transmit e nsent frames s = sendThen (.ending e) nsent frames s.busIn s := rfl

theorem transmitPowerOn_eq_sendThen (s : State) :
    transmitPowerOn s = sendThen .powerOn 0 (powerOnFrames s.params) s.busIn s := rfl

theorem resume_noAnswer {s : State} (job : Job) (h : s.busIn = []) : resume job s = s := by
  simp [resume, h]

theorem resume_ok {s : State} (job : Job) {as : List Answer} (h : s.busIn = .ok :: as) :
    resume job s = sendThen job.stage job.nsent job.queue as s := by
  simp [resume, h, sendThen]

theorem resume_err {s : State} (job : Job) {as : List Answer} (h : s.busIn = .err :: as) :
    resume job s = conclude job.stage (.failed (job.nsent - 1) job.frame) (s.emit [] as) := by
  simp [resume, h]

/-- A frame not answered: the command waits for it, whatever its stage (R208). -/
theorem conclude_silent (stage : Stage) (f : Frame) (queue : List Frame) (n : Nat) (s : State) :
    conclude stage (.silent f queue n) s = awaitAnswer stage f queue n s := by
  cases stage <;> rfl

/-- INIT's power-on frames all answered Ok: the zeroed surface and its flush (R240). -/
theorem conclude_powerOn_allOk (n : Nat) (s : State) :
    conclude .powerOn (.allOk n) s =
      sendThen (.ending .init) n (flushFrames s.params Memory.zeroed) s.busIn (s.setFb (some Memory.zeroed)) := rfl

theorem conclude_powerOn_failed (i : Nat) (f : Frame) (s : State) :
    conclude .powerOn (.failed i f) s = respond .deviceInitFailed .none ((s.diag (.txFail i f)).setLc .detached) := rfl

theorem conclude_ending_allOk (e : Ending) (n : Nat) (s : State) : conclude (.ending e) (.allOk n) s = endOk e s := rfl

theorem conclude_ending_failed (e : Ending) (i : Nat) (f : Frame) (s : State) :
    conclude (.ending e) (.failed i f) s = endErr e (s.diag (.txFail i f)) := rfl

/-- Everything a run of frames can come to, by its answers. -/
theorem sendThen_cases (stage : Stage) (n : Nat) (fs : List Frame) (as : List Answer) (s : State) :
    (∃ rest, as = List.replicate fs.length .ok ++ rest ∧
      sendThen stage n fs as s = conclude stage (.allOk (n + fs.length)) (s.emit fs rest)) ∨
    (∃ k, ∃ hk : k < fs.length, ∃ rest, as = List.replicate k .ok ++ .err :: rest ∧
      sendThen stage n fs as s = conclude stage (.failed (n + k) fs[k]) (s.emit (fs.take (k + 1)) rest)) ∨
    (∃ k, ∃ hk : k < fs.length, as = List.replicate k .ok ∧
      sendThen stage n fs as s =
        awaitAnswer stage fs[k] (fs.drop (k + 1)) (n + k + 1) (s.emit (fs.take (k + 1)) [])) := by
  rcases sendFrames_cases n fs as with ⟨rest, h, sent⟩ | ⟨k, hk, rest, h, sent⟩ | ⟨k, hk, h, sent⟩
  · exact .inl ⟨rest, h, by simp only [sendThen, sent]⟩
  · exact .inr (.inl ⟨k, hk, rest, h, by simp only [sendThen, sent]⟩)
  · exact .inr (.inr ⟨k, hk, h, by simp only [sendThen, sent, conclude_silent]⟩)

/-! ## Answers that come later -/

/-- How a command ends does not depend on the phase it ends from: it sets the phase itself. -/
theorem conclude_setPhase (stage : Stage) (r : SendResult) (p : Phase) (s : State) :
    conclude stage r (s.setPhase p) = conclude stage r s := by
  have ending : ∀ (e : Ending) (r : SendResult) (s : State),
      conclude (.ending e) r (s.setPhase p) = conclude (.ending e) r s := by
    intro e r s
    cases r
    case silent => rfl
    all_goals cases e <;> rfl
  cases stage with
  | ending e => exact ending e r s
  | powerOn =>
    cases r with
    | allOk n => exact ending .init _ ((s.setFb (some Memory.zeroed)).emit _ _)
    | failed i f => rfl
    | silent f queue n => rfl

/-- A run of frames takes its answers as given and sets the phase itself. -/
theorem sendThen_congr (stage : Stage) (n : Nat) (fs : List Frame) (as : List Answer) (s : State) (p : Phase)
    (answers : List Answer) : sendThen stage n fs as { s with phase := p, busIn := answers } = sendThen stage n fs as s :=
  conclude_setPhase stage _ p (s.emit _ _)

/-- The command goes on when its answer comes, and what it does then adds to what it has sent. -/
theorem resume_awaitAnswer (stage : Stage) (f : Frame) (queue : List Frame) (k : Nat) (s : State) (b : Answer)
    (bs : List Answer) :
    resume ⟨stage, f, queue, k⟩ { awaitAnswer stage f queue k s with busIn := b :: bs } =
      match b with
      | .ok => sendThen stage k queue bs s
      | .err => conclude stage (.failed (k - 1) f) (s.emit [] bs) := by
  cases b with
  | ok => exact (resume_ok _ rfl).trans (sendThen_congr stage k queue bs s _ _)
  | err => exact (resume_err _ rfl).trans (conclude_setPhase stage _ _ (s.emit [] bs))

@[simp] theorem endOk_phase (e : Ending) (s : State) : (endOk e s).phase = .idle := by cases e <;> rfl

@[simp] theorem endErr_phase (e : Ending) (s : State) : (endErr e s).phase = .idle := by cases e <;> rfl

section
variable {n : Nat} {fs : List Frame} {as : List Answer} {s : State} {job : Job}

/-- A run that waits uses the next answers as if they had been there at once (R208). -/
theorem resume_of_silent {stage : Stage} {f : Frame} {queue : List Frame} {k : Nat}
    (silent : (sendFrames n fs as).result = .silent f queue k)
    (waits : (sendThen stage n fs as s).phase = .bus job) (b : Answer) (bs : List Answer) :
    resume job { sendThen stage n fs as s with busIn := b :: bs } = sendThen stage n fs (as ++ b :: bs) s := by
  have run : sendThen stage n fs as s =
      awaitAnswer stage f queue k (s.emit (sendFrames n fs as).sent (sendFrames n fs as).rest) := by
    rw [sendThen, silent, conclude_silent]
  rw [run, awaitAnswer_phase] at waits
  obtain rfl := Phase.bus.inj waits
  rw [run, resume_awaitAnswer]
  simp only [sendThen, sendFrames_append_silent n fs as f queue k silent b bs]
  cases b with
  | ok => simp only [State.emit_emit]
  | err => simp only [State.emit_emit, List.append_nil]

/-- A last run of frames ends its command unless it waits. -/
theorem resume_sendThen_ending {e : Ending} (waits : (sendThen (.ending e) n fs as s).phase = .bus job)
    (b : Answer) (bs : List Answer) :
    resume job { sendThen (.ending e) n fs as s with busIn := b :: bs } =
      sendThen (.ending e) n fs (as ++ b :: bs) s := by
  cases result : (sendFrames n fs as).result with
  | allOk m => simp [sendThen, result, conclude_ending_allOk] at waits
  | failed i f => simp [sendThen, result, conclude_ending_failed] at waits
  | silent f queue k => exact resume_of_silent result waits b bs

/-- INIT may wait in its power-on frames or, these answered, in its flush. -/
theorem resume_sendThen_powerOn (waits : (sendThen .powerOn n fs as s).phase = .bus job)
    (b : Answer) (bs : List Answer) :
    resume job { sendThen .powerOn n fs as s with busIn := b :: bs } = sendThen .powerOn n fs (as ++ b :: bs) s := by
  cases result : (sendFrames n fs as).result with
  | allOk m =>
    have done : ∀ f queue k, (sendFrames n fs as).result ≠ .silent f queue k := by simp [result]
    rw [sendThen, result, conclude_powerOn_allOk] at waits ⊢
    rw [resume_sendThen_ending waits, sendThen.eq_1 .powerOn, sendFrames_append_done n fs as _ done, result]
    rfl
  | failed i f => simp [sendThen, result, conclude_powerOn_failed] at waits
  | silent f queue k => exact resume_of_silent result waits b bs

end

end Sys2Proof.Proofs.FrameRuns
end

section
/-! What every operation of the block keeps: the parameters are never written, and the output ports only grow (R42, R322). -/
namespace Sys2Proof.Proofs.OutputGrows

open Sys2Proof Sys2Proof.Machine
open Sys2Proof.Proofs.FrameRuns Sys2Proof.Proofs.StepCases

/-- `t` has the parameters and the reset input of `s`, and on each output port what `s` has put out and perhaps more. -/
structure Grows (s t : State) : Prop where
  params : t.params = s.params
  resetIn : t.resetIn = s.resetIn
  busOut : s.busOut <+: t.busOut
  respOut : s.respOut <+: t.respOut
  diagOut : s.diagOut <+: t.diagOut

namespace Grows

theorem refl (s : State) : Grows s s :=
  ⟨rfl, rfl, List.prefix_rfl, List.prefix_rfl, List.prefix_rfl⟩

theorem trans {s t u : State} (first : Grows s t) (second : Grows t u) : Grows s u :=
  ⟨second.params.trans first.params, second.resetIn.trans first.resetIn, first.busOut.trans second.busOut,
    first.respOut.trans second.respOut, first.diagOut.trans second.diagOut⟩

end Grows

variable (s : State)

theorem grows_setLc (l : Lifecycle) : Grows s (s.setLc l) :=
  ⟨rfl, rfl, List.prefix_rfl, List.prefix_rfl, List.prefix_rfl⟩

theorem grows_setFb (fb : Option Memory) : Grows s (s.setFb fb) :=
  ⟨rfl, rfl, List.prefix_rfl, List.prefix_rfl, List.prefix_rfl⟩

theorem grows_emit (frames : List Frame) (rest : List Answer) : Grows s (s.emit frames rest) :=
  ⟨rfl, rfl, List.prefix_append _ _, List.prefix_rfl, List.prefix_rfl⟩

theorem grows_events (events : List Diag) : Grows s { s with diagOut := s.diagOut ++ events } :=
  ⟨rfl, rfl, List.prefix_rfl, List.prefix_rfl, List.prefix_append _ _⟩

theorem grows_respond (code : ResultCode) (data : RespData) : Grows s (respond code data s) :=
  ⟨rfl, rfl, List.prefix_rfl, List.prefix_append _ _, List.prefix_rfl⟩

theorem grows_awaitAnswer (stage : Stage) (f : Frame) (queue : List Frame) (n : Nat) :
    Grows s (awaitAnswer stage f queue n s) :=
  ⟨rfl, rfl, List.prefix_rfl, List.prefix_rfl, List.prefix_rfl⟩

/-- The phase and the command port after bytes were taken. -/
theorem grows_taken (p : Phase) (bytes : List Byte) : Grows s { s with phase := p, cmdIn := bytes } :=
  ⟨rfl, rfl, List.prefix_rfl, List.prefix_rfl, List.prefix_rfl⟩

theorem grows_endOk (e : Ending) : Grows s (endOk e s) := by
  cases e <;> exact ⟨rfl, rfl, List.prefix_rfl, List.prefix_append _ _, List.prefix_rfl⟩

theorem grows_endErr (e : Ending) : Grows s (endErr e s) := by
  cases e <;> exact ⟨rfl, rfl, List.prefix_rfl, List.prefix_append _ _, List.prefix_rfl⟩

theorem grows_conclude_ending (e : Ending) (r : SendResult) : Grows s (conclude (.ending e) r s) := by
  cases r with
  | allOk n => exact grows_endOk s e
  | failed i f => exact (grows_events s [.txFail i f]).trans (grows_endErr _ e)
  | silent f queue n => exact grows_awaitAnswer s _ f queue n

theorem grows_conclude (stage : Stage) (r : SendResult) : Grows s (conclude stage r s) := by
  cases stage with
  | ending e => exact grows_conclude_ending s e r
  | powerOn =>
    cases r with
    | allOk n => exact ((grows_setFb s _).trans (grows_emit _ _ _)).trans (grows_conclude_ending _ .init _)
    | failed i f => exact ⟨rfl, rfl, List.prefix_rfl, List.prefix_append _ _, List.prefix_append _ _⟩
    | silent f queue n => exact grows_awaitAnswer s _ f queue n

theorem grows_sendThen (stage : Stage) (n : Nat) (fs : List Frame) (as : List Answer) :
    Grows s (sendThen stage n fs as s) :=
  (grows_emit s _ _).trans (grows_conclude _ stage _)

theorem grows_transmit (e : Ending) (n : Nat) (fs : List Frame) : Grows s (transmit e n fs s) := by
  rw [transmit_eq_sendThen]
  exact grows_sendThen s _ _ _ _

theorem grows_transmitPowerOn : Grows s (transmitPowerOn s) := by
  rw [transmitPowerOn_eq_sendThen]
  exact grows_sendThen s _ _ _ _

theorem grows_resume (job : Job) : Grows s (resume job s) := by
  match answers : s.busIn with
  | [] =>
    rw [resume_noAnswer job answers]
    exact Grows.refl s
  | .ok :: as =>
    rw [resume_ok job answers]
    exact grows_sendThen s _ _ _ _
  | .err :: as =>
    rw [resume_err job answers]
    exact (grows_emit s _ _).trans (grows_conclude _ _ _)

/-- A command adds to the output ports and leaves the parameters and the reset input. -/
theorem grows_exec {s t : State} {i : Instr} (run : exec i s = .next t) : Grows s t := by
  rcases exec_next run with ⟨code, data, rfl, -⟩ | ⟨m, -, -, -, -, rfl⟩ | ⟨-, -, rfl⟩ | ⟨-, -, rfl⟩ |
    ⟨_, _, _, -, -, -, rfl⟩
  case inl => exact grows_respond s code data
  case inr.inl => exact ((grows_events s _).trans (grows_setFb _ _)).trans (grows_transmit _ _ _ _)
  case inr.inr.inl => exact (grows_setLc s _).trans (grows_transmitPowerOn _)
  case inr.inr.inr.inl => exact (grows_setLc s _).trans (grows_transmit _ _ _ _)
  case inr.inr.inr.inr => exact grows_transmit s _ _ _

/-- A step resets, goes on with a waiting command, takes bytes, or runs what they decode to; of these only a reset touches
the reset input. -/
theorem grows_step {s t : State} (run : step s = .next t) : t = afterReset s ∨ Grows s t := by
  rcases step_next run with reset | wait | ⟨d, u, whole, outcome⟩
  · exact .inl reset
  · cases wait with
    | resumed job phase => exact .inr (grows_resume s job)
    | nothing => exact .inr (Grows.refl s)
    | pending => exact .inr (grows_taken s _ _)
  · cases whole with
    | whole d rest free =>
      obtain ⟨r, -, rfl⟩ | ⟨i, -, executed⟩ := outcome
      · exact .inr ((grows_taken s _ _).trans (grows_respond _ _ _))
      · exact .inr ((grows_taken s _ _).trans (grows_exec executed))

/-- Settles O46: `grows_step`; a reset leaves the parameters too (R42). -/
theorem parametersNeverChange : Obligations.ParametersNeverChange := by
  intro s t run
  obtain rfl | grows := grows_step run
  · rfl
  · exact grows.params

/-- Settles O47: `grows_step`; a reset leaves what was put out (R322). -/
theorem outputIsNeverTakenBack : Obligations.OutputIsNeverTakenBack := by
  intro s t run
  obtain rfl | grows := grows_step run
  · exact ⟨List.prefix_rfl, List.prefix_rfl, List.prefix_rfl⟩
  · exact ⟨grows.busOut, grows.respOut, grows.diagOut⟩

end Sys2Proof.Proofs.OutputGrows
end

section
/-! A command whose answers come in pieces does what it does with the answers at once (R208, R334). -/
namespace Sys2Proof.Proofs.AnswersInPieces

open Sys2Proof Sys2Proof.Machine
open Sys2Proof.Proofs.FrameRuns Sys2Proof.Proofs.OutputGrows Sys2Proof.Proofs.Steps
open Sys2Proof.Proofs.InitSequence Sys2Proof.Proofs.AttachedControl Sys2Proof.Proofs.SingleCommands

variable {s : State} {job : Job} (b : Answer) (bs : List Answer)

theorem resume_transmit {e : Ending} {n : Nat} {fs : List Frame} (waits : (transmit e n fs s).phase = .bus job) :
    resume job { transmit e n fs s with busIn := b :: bs } =
      transmit e n fs { s with busIn := s.busIn ++ b :: bs } :=
  (resume_sendThen_ending waits b bs).trans (sendThen_congr _ _ _ _ s s.phase _).symm

theorem resume_transmitPowerOn (waits : (transmitPowerOn s).phase = .bus job) :
    resume job { transmitPowerOn s with busIn := b :: bs } =
      transmitPowerOn { s with busIn := s.busIn ++ b :: bs } :=
  (resume_sendThen_powerOn waits b bs).trans (sendThen_congr _ _ _ _ s s.phase _).symm

/-- Every command that can wait sends its frames as the last thing it does, from a state that the answers do not touch. -/
theorem exec_resumed {i : Instr} {t : State} (run : exec i s = .next t) (waits : t.phase = .bus job) :
    exec i { s with busIn := s.busIn ++ b :: bs } = .next (resume job { t with busIn := b :: bs }) := by
  rcases exec_next run with ⟨code, data, rfl, -⟩ | ⟨m, hf, ho, attached, surface, rfl⟩ | ⟨rfl, detached, rfl⟩ |
    ⟨rfl, attached, rfl⟩ | ⟨mode, f, l, rfl, attached, supported, rfl⟩
  case inl => cases waits
  case inr.inl =>
    rw [exec_flushes (s := { s with busIn := s.busIn ++ b :: bs }) hf ho attached surface]
    exact congrArg _ (resume_transmit b bs waits).symm
  case inr.inr.inl =>
    rw [exec_init_detached (s := { s with busIn := s.busIn ++ b :: bs }) detached]
    exact congrArg _ (resume_transmitPowerOn b bs waits).symm
  case inr.inr.inr.inl =>
    rw [exec_shutdown_attached (s := { s with busIn := s.busIn ++ b :: bs }) attached]
    exact congrArg _ (resume_transmit b bs waits).symm
  case inr.inr.inr.inr =>
    rw [exec_blank_supported (s := { s with busIn := s.busIn ++ b :: bs }) attached supported]
    exact congrArg _ (resume_transmit b bs waits).symm

/-- Settles O11: a step of a waiting command is `resume`, and `exec_resumed` says what that comes to. -/
theorem answersMayComeInPieces : Obligations.AnswersMayComeInPieces := by
  intro i s t job b bs released run waits
  rw [exec_resumed b bs run waits]
  exact step_of_wait (s := { t with busIn := b :: bs }) ((grows_exec run).resetIn.trans released) (fetch_of_bus waits)

end Sys2Proof.Proofs.AnswersInPieces
end

section
/-! What a command that sends frames has come to, said once for FLUSH, the mutating commands, INIT, SHUTDOWN and BLANK: the
ports, the phase and LC after the answers at hand (R34, R206, R208, R210, R289, R301). -/
namespace Sys2Proof.Proofs.CommandEnds

open Sys2Proof Sys2Proof.Machine
open Sys2Proof.Proofs.InitSequence Sys2Proof.Proofs.SingleCommands

/-! ## The three ends -/

/-- The code of a command one of whose frames is answered Err (R97, R242, R250, R260). -/
def failCode : Instr → ResultCode
  | .init => .deviceInitFailed
  | .shutdown => .ok
  | _ => .transportError

/-- LC after a command whose frames are all answered Ok (R34). -/
def lcAfterOk (before : Lifecycle) : Instr → Lifecycle
  | .init => .active
  | .shutdown => .detached
  | .blank mode => if mode.toNat = 1 then .blanked else .active
  | _ => before

/-- LC after a command one of whose frames is answered Err (R34). -/
def lcAfterErr (before : Lifecycle) : Instr → Lifecycle
  | .init => .detached
  | .shutdown => .detached
  | _ => before

/-- What `t` has put out beyond `s`. -/
structure PutOut (s t : State) (frames : List Frame) (events : List Diag) (responses : List Response) : Prop where
  busOut : t.busOut = s.busOut ++ frames
  diagOut : t.diagOut = s.diagOut ++ events
  respOut : t.respOut = s.respOut ++ responses

/-- The command `i`, which sends the frames `fs`, has brought the block from `s` to `t`. -/
inductive Sent (i : Instr) (s t : State) (fs : List Frame) : Prop
  /-- Every frame was answered Ok. -/
  | allOk (rest : List Answer) (answers : s.answersOk fs.length rest) (busIn : t.busIn = rest) (phase : t.phase = .idle)
      (lc : t.lc = lcAfterOk s.lc i) (out : PutOut s t fs (eventsBefore i) [⟨.ok, flushData i⟩])
  /-- Frame `k` was answered Err, and no frame after it was presented. -/
  | errAt (k : Nat) (f : Frame) (rest : List Answer) (frame : fs[k]? = some f) (answers : s.answersErrAt k rest)
      (busIn : t.busIn = rest) (phase : t.phase = .idle) (lc : t.lc = lcAfterErr s.lc i)
      (out : PutOut s t (fs.take (k + 1)) (eventsBefore i ++ [.txFail k f]) [⟨failCode i, flushData i⟩])
  /-- Frame `k` was presented, and the command waits for its answer. -/
  | silentAt (k : Nat) (job : Job) (frame : fs[k]? = some job.frame) (answers : s.busIn = List.replicate k .ok)
      (busIn : t.busIn = []) (phase : t.phase = .bus job) (out : PutOut s t (fs.take (k + 1)) (eventsBefore i) [])

/-! ## FLUSH and the mutating commands -/

theorem failCode_of_flushes {i : Instr} (h : flushes i = true) : failCode i = .transportError := by
  cases i
  case init | shutdown => cases h
  all_goals rfl

theorem lcAfterOk_of_flushes {i : Instr} (h : flushes i = true) (before : Lifecycle) : lcAfterOk before i = before := by
  cases i
  case init | shutdown | blank => cases h
  all_goals rfl

theorem lcAfterErr_of_flushes {i : Instr} (h : flushes i = true) (before : Lifecycle) : lcAfterErr before i = before := by
  cases i
  case init | shutdown => cases h
  all_goals rfl

theorem sent_commitThenFlush {i : Instr} (h : flushes i = true) (m : Memory) (s : State) :
    Sent i s (commitThenFlush (flushData i) m { s with diagOut := s.diagOut ++ eventsBefore i })
      (flushFrames s.params m) := by
  rcases commitThenFlush_cases (flushData i) m { s with diagOut := s.diagOut ++ eventsBefore i } with
    ⟨rest, answers, run⟩ | ⟨k, hk, rest, answers, run⟩ | ⟨k, hk, answers, run⟩ <;> rw [run]
  · refine .allOk rest ?_ rfl rfl (lcAfterOk_of_flushes h s.lc).symm ⟨rfl, rfl, rfl⟩
    rwa [flushFrames_length]
  · refine .errAt k _ rest (List.getElem?_eq_getElem hk) answers rfl rfl (lcAfterErr_of_flushes h s.lc).symm
      ⟨rfl, List.append_assoc _ _ _, ?_⟩
    rw [failCode_of_flushes h]
    rfl
  · exact .silentAt k _ (List.getElem?_eq_getElem hk) answers rfl rfl ⟨rfl, rfl, (List.append_nil _).symm⟩

/-! ## SHUTDOWN and BLANK: one frame -/

theorem sent_shutdown (s : State) :
    Sent .shutdown s (transmit .shutdown 0 [s.params.displayOff] (s.setLc .detaching)) [s.params.displayOff] := by
  rcases transmit_cases .shutdown 0 [s.params.displayOff] (s.setLc .detaching) with
    ⟨rest, answers, run⟩ | ⟨k, hk, rest, answers, run⟩ | ⟨k, hk, answers, run⟩ <;> rw [run]
  · exact .allOk rest answers rfl rfl rfl ⟨rfl, (List.append_nil _).symm, rfl⟩
  · exact .errAt k _ rest (List.getElem?_eq_getElem hk) answers rfl rfl rfl ⟨rfl, by simp [endErr, eventsBefore], rfl⟩
  · exact .silentAt k _ (List.getElem?_eq_getElem hk) answers rfl rfl
      ⟨rfl, (List.append_nil _).symm, (List.append_nil _).symm⟩

theorem sent_blank {mode : Byte} {f : Frame} {l : Lifecycle} (s : State)
    (supported : (mode.toNat = 1 ∧ f = s.params.displayOff ∧ l = .blanked) ∨
      (mode.toNat = 0 ∧ f = s.params.displayOn ∧ l = .active)) :
    Sent (.blank mode) s (transmit (.blank l) 0 [f] s) [f] := by
  have target : l = lcAfterOk s.lc (.blank mode) := by
    rcases supported with ⟨normal, -, rfl⟩ | ⟨unblank, -, rfl⟩
    · exact (if_pos normal).symm
    · exact (if_neg (by omega)).symm
  rcases transmit_cases (.blank l) 0 [f] s with
    ⟨rest, answers, run⟩ | ⟨k, hk, rest, answers, run⟩ | ⟨k, hk, answers, run⟩ <;> rw [run]
  · exact .allOk rest answers rfl rfl target ⟨rfl, (List.append_nil _).symm, rfl⟩
  · exact .errAt k _ rest (List.getElem?_eq_getElem hk) answers rfl rfl rfl ⟨rfl, by simp [endErr, eventsBefore], rfl⟩
  · exact .silentAt k _ (List.getElem?_eq_getElem hk) answers rfl rfl
      ⟨rfl, (List.append_nil _).symm, (List.append_nil _).symm⟩

/-! ## INIT: the power-on frames, then the flush, as one run of frames -/

section
variable (ps : Params) {k : Nat}

theorem initFrames_powerOn (hk : k < (powerOnFrames ps).length) : (initFrames ps)[k]? = some (powerOnFrames ps)[k] := by
  rw [initFrames, List.getElem?_append_left hk, List.getElem?_eq_getElem hk]

theorem initFrames_flush (hk : k < (flushFrames ps Memory.zeroed).length) :
    (initFrames ps)[(powerOnFrames ps).length + k]? = some (flushFrames ps Memory.zeroed)[k] := by
  rw [initFrames, List.getElem?_append_right (Nat.le_add_right _ _), Nat.add_sub_cancel_left,
    List.getElem?_eq_getElem hk]

theorem initFrames_take_powerOn (hk : k < (powerOnFrames ps).length) :
    (initFrames ps).take (k + 1) = (powerOnFrames ps).take (k + 1) :=
  List.take_append_of_le_length hk

theorem initFrames_take_flush : (initFrames ps).take ((powerOnFrames ps).length + k + 1) =
    powerOnFrames ps ++ (flushFrames ps Memory.zeroed).take (k + 1) :=
  List.take_length_add_append (k + 1)

end

/-- INIT waits or ends in its power-on frames, or goes on to its flush with the answers that are left (R240). -/
theorem sent_init (s : State) :
    Sent .init s (transmitPowerOn (s.setLc .attaching)) (initFrames s.params) := by
  have powerOn := transmitPowerOn_cases (s.setLc .attaching)
  simp only [State.setLc_params, State.setLc_busIn] at powerOn
  rcases powerOn with ⟨left, ok, run⟩ | ⟨k, hk, rest, answers, run⟩ | ⟨k, hk, answers, run⟩ <;> rw [run]
  · rcases transmit_cases .init (powerOnFrames s.params).length (flushFrames s.params Memory.zeroed)
      (((s.setLc .attaching).emit (powerOnFrames s.params) left).setFb (some Memory.zeroed)) with
      ⟨rest, rfl, run⟩ | ⟨k, hk, rest, rfl, run⟩ | ⟨k, hk, rfl, run⟩ <;> rw [run]
    · refine .allOk rest ?_ rfl rfl rfl ⟨List.append_assoc _ _ _, (List.append_nil _).symm, rfl⟩
      rw [State.answersOk, ok, initFrames, List.length_append, List.replicate_add, List.append_assoc]
    · refine .errAt ((powerOnFrames s.params).length + k) _ rest (initFrames_flush _ hk) ?_ rfl rfl rfl
        ⟨?_, rfl, rfl⟩
      · rw [State.answersErrAt, ok, List.replicate_add, List.append_assoc]
      · rw [initFrames_take_flush]
        exact List.append_assoc _ _ _
    · refine .silentAt ((powerOnFrames s.params).length + k) _ (initFrames_flush _ hk) ?_ rfl rfl
        ⟨?_, (List.append_nil _).symm, (List.append_nil _).symm⟩
      · rw [ok, List.replicate_add]
      · rw [initFrames_take_flush]
        exact List.append_assoc _ _ _
  · refine .errAt k _ rest (initFrames_powerOn _ hk) answers rfl rfl rfl ⟨?_, rfl, rfl⟩
    rw [initFrames_take_powerOn _ hk]
    rfl
  · refine .silentAt k _ (initFrames_powerOn _ hk) answers rfl rfl
      ⟨?_, (List.append_nil _).symm, (List.append_nil _).symm⟩
    rw [initFrames_take_powerOn _ hk]
    rfl

/-! ## Every command -/

/-- The commands that send frames, in the states in which they do (R240, R250, R256, R292). -/
def MaySend (s : State) : Instr → Prop
  | .init => s.lc = .detached
  | .shutdown => s.attached
  | .blank mode => s.attached ∧ mode.toNat < 2
  | i => s.attached ∧ flushes i = true

theorem maySend_of_flushes {i : Instr} {s : State} (h : flushes i = true) (attached : s.attached) : MaySend s i := by
  cases i
  case init | shutdown | blank => cases h
  all_goals exact ⟨attached, h⟩

/-- A command answers at once, and is then no SHUTDOWN of an attached state, or sends frames and is where `Sent` says. -/
theorem exec_ends {i : Instr} {s t : State} (run : exec i s = .next t) :
    (∃ code data, t = respond code data s ∧ code ∈ mayReturn i ∧ ¬(i = .shutdown ∧ s.attached)) ∨
      MaySend s i ∧ ∃ fs, Sent i s t fs := by
  by_cases shutdown : i = .shutdown ∧ s.attached
  · obtain ⟨rfl, attached⟩ := shutdown
    obtain rfl := Host.Outcome.next.inj ((exec_shutdown_attached attached).symm.trans run)
    exact .inr ⟨attached, _, sent_shutdown s⟩
  rcases exec_next run with ⟨code, data, rfl, allowed, -⟩ | ⟨m, hf, -, attached, -, rfl⟩ | ⟨rfl, detached, rfl⟩ |
    ⟨rfl, attached, rfl⟩ | ⟨mode, f, l, rfl, attached, supported, rfl⟩
  · exact .inl ⟨code, data, rfl, allowed, shutdown⟩
  · exact .inr ⟨maySend_of_flushes hf attached, _, sent_commitThenFlush hf _ s⟩
  · exact .inr ⟨detached, _, sent_init s⟩
  · exact absurd ⟨rfl, attached⟩ shutdown
  · exact .inr ⟨⟨attached, by omega⟩, _, sent_blank s supported⟩

/-! ## Frames and answers -/

/-- Among answers that begin with `n` Ok, an Err comes after them. -/
theorem le_of_err {n k : Nat} {rest : List Answer} (err : (List.replicate n Answer.ok ++ rest)[k]? = some .err) :
    n ≤ k := by
  by_contra early
  rw [List.getElem?_append_left (by simpa using early), List.getElem?_replicate_of_lt (by omega)] at err
  cases err

/-- Settles O29: of the frames that `Sent` names, the last one presented is the last answered, or the one waited for. -/
theorem eachFrameIsAnsweredBeforeTheNext : Obligations.EachFrameIsAnsweredBeforeTheNext := by
  intro i s t run
  rcases exec_ends run with ⟨code, data, rfl, -⟩ | ⟨-, fs, sent⟩
  · exact ⟨[], (List.append_nil _).symm, fun _ => rfl, fun k _ => Nat.zero_le _, fun job waits => nomatch waits⟩
  cases sent with
  | allOk rest answers busIn phase lc out =>
    refine ⟨fs, out.busOut, fun _ => ?_, fun k err => ?_, fun job waits => ?_⟩
    · simp [answers, busIn, Nat.add_comm]
    · exact Nat.le_succ_of_le (le_of_err (answers ▸ err))
    · cases phase.symm.trans waits
  | errAt k f rest frame answers busIn phase lc out =>
    have presented : (fs.take (k + 1)).length = k + 1 :=
      List.length_take_of_le (List.getElem?_eq_some_iff.1 frame).1
    refine ⟨_, out.busOut, fun _ => ?_, fun j err => ?_, fun job waits => ?_⟩
    · rw [answers, busIn, presented, List.length_append, List.length_replicate, List.length_cons]
      omega
    · rw [presented]
      exact Nat.succ_le_succ (le_of_err (answers ▸ err))
    · cases phase.symm.trans waits
  | silentAt k job frame answers busIn phase out =>
    have presented : (fs.take (k + 1)).length = k + 1 :=
      List.length_take_of_le (List.getElem?_eq_some_iff.1 frame).1
    refine ⟨_, out.busOut, fun ended => ?_, fun j err => ?_, fun job' waits => ⟨busIn, ?_, ?_⟩⟩
    · cases phase.symm.trans ended
    · rw [answers, List.getElem?_replicate] at err
      split at err <;> cases err
    · rw [presented, answers, List.length_replicate]
    · obtain rfl := Phase.bus.inj (phase.symm.trans waits)
      simp [List.getLast?_take, frame]

/-! ## Responses -/

/-- The two codes of a command that sends frames are in its row of the table (R289). -/
theorem codes_of_maySend {i : Instr} {s : State} (h : MaySend s i) : .ok ∈ mayReturn i ∧ failCode i ∈ mayReturn i := by
  cases i
  case nop | getPixel | rawRead | pageRead => exact Bool.noConfusion h.2
  all_goals simp [mayReturn, failCode]

/-- Settles O39: every end of `exec_ends` has one response, and a wait none. -/
theorem eachCommandEndsWithOneAllowedResponse : Obligations.EachCommandEndsWithOneAllowedResponse := by
  intro i s t run
  rcases exec_ends run with ⟨code, data, rfl, allowed, -⟩ | ⟨sends, fs, sent⟩
  · exact .inl ⟨rfl, _, rfl, allowed⟩
  obtain ⟨ok, fail⟩ := codes_of_maySend sends
  cases sent with
  | allOk rest answers busIn phase lc out => exact .inl ⟨phase, _, out.respOut, ok⟩
  | errAt k f rest frame answers busIn phase lc out => exact .inl ⟨phase, _, out.respOut, fail⟩
  | silentAt k job frame answers busIn phase out =>
    exact .inr ⟨⟨job, phase⟩, out.respOut.trans (List.append_nil _)⟩

/-! ## Events -/

/-- The events before the first frame: none, or Clipped of a FILL_RECT, or Truncated of a RAW_WRITE (R141, R171). -/
theorem eventsBefore_cases (i : Instr) :
    eventsBefore i = [] ∨ (∃ x y w h c d, i = .fillRect x y w h c ∧ eventsBefore i = [d] ∧
        ∃ a b c' d', d = .clipped x.toNat y.toNat w.toNat h.toNat a b c' d') ∨
      ∃ off pl n, i = .rawWrite off pl ∧ eventsBefore i = [.truncated off.toNat pl.length n] ∧ n < pl.length := by
  cases i
  case fillRect x y w h c =>
    by_cases clipped : isClipped w.toNat h.toNat (clipRect x.toNat y.toNat w.toNat h.toNat) = true
    · exact .inr (.inl ⟨x, y, w, h, c, _, rfl, if_pos clipped, _, _, _, _, rfl⟩)
    · exact .inl (if_neg clipped)
  case rawWrite off pl =>
    by_cases truncated : clampLen off.toNat pl.length < pl.length
    · exact .inr (.inr ⟨off, pl, _, rfl, if_pos truncated, truncated⟩)
    · exact .inl (if_neg truncated)
  all_goals exact .inl rfl

/-- Settles O40: the events of each end of `exec_ends`, those before the frames by `eventsBefore_cases`. -/
theorem eventsComeInOrderAndAtMostOneFailure : Obligations.EventsComeInOrderAndAtMostOneFailure := by
  intro i s t run
  rcases exec_ends run with ⟨code, data, rfl, -⟩ | ⟨-, fs, sent⟩
  · exact ⟨[], [], (List.append_nil _).symm, .inl rfl, .inl rfl⟩
  cases sent with
  | allOk rest answers busIn phase lc out =>
    exact ⟨eventsBefore i, [], by rw [out.diagOut, List.append_nil], eventsBefore_cases i, .inl rfl⟩
  | errAt k f rest frame answers busIn phase lc out =>
    exact ⟨eventsBefore i, [.txFail k f], out.diagOut, eventsBefore_cases i, .inr ⟨k, f, rfl⟩⟩
  | silentAt k job frame answers busIn phase out =>
    exact ⟨eventsBefore i, [], by rw [out.diagOut, List.append_nil], eventsBefore_cases i, .inl rfl⟩

/-! ## LC -/

/-- Every command but SHUTDOWN while attached may leave LC as it is (R34). -/
theorem lcChange_self {l : Lifecycle} {i : Instr} (h : ¬(i = .shutdown ∧ (l = .active ∨ l = .blanked))) :
    lcChange l i l = true := by
  cases l
  case active | blanked =>
    cases i
    case shutdown => exact absurd ⟨rfl, by decide⟩ h
    all_goals rfl
  all_goals cases i <;> rfl

theorem lcChange_afterOk {s : State} {i : Instr} (h : MaySend s i) : lcChange s.lc i (lcAfterOk s.lc i) = true := by
  cases i
  case init =>
    have detached : s.lc = .detached := h
    rw [detached]
    rfl
  case shutdown => rcases h with lc | lc <;> rw [lc] <;> rfl
  case blank mode =>
    obtain ⟨attached, supported⟩ := h
    have mode_eq : mode.toNat = 0 ∨ mode.toNat = 1 := by omega
    rcases attached with lc | lc <;> rcases mode_eq with value | value <;> simp [lcChange, lcAfterOk, lc, value]
  all_goals exact lcChange_self (by simp)

theorem lcChange_afterErr {s : State} {i : Instr} (h : MaySend s i) : lcChange s.lc i (lcAfterErr s.lc i) = true := by
  cases i
  case init =>
    have detached : s.lc = .detached := h
    rw [detached]
    rfl
  case shutdown => rcases h with lc | lc <;> rw [lc] <;> rfl
  all_goals exact lcChange_self (by simp)

/-- Settles O41: each end of `exec_ends` is a row of the table; a command that waits has not ended. -/
theorem lifecycleChangesOnlyAsTheTableSays : Obligations.LifecycleChangesOnlyAsTheTableSays := by
  intro i s t idle resting run ended
  rcases exec_ends run with ⟨code, data, rfl, -, notShutdown⟩ | ⟨sends, fs, sent⟩
  · exact lcChange_self notShutdown
  cases sent with
  | allOk rest answers busIn phase lc out => exact lc ▸ lcChange_afterOk sends
  | errAt k f rest frame answers busIn phase lc out => exact lc ▸ lcChange_afterErr sends
  | silentAt k job frame answers busIn phase out => cases phase.symm.trans ended

end Sys2Proof.Proofs.CommandEnds
end

section
/-! What a command leaves behind after an error code, by its end (R290). -/
namespace Sys2Proof.Proofs.NoPartialState

open Sys2Proof Sys2Proof.Machine
open Sys2Proof.Proofs.Flush Sys2Proof.Proofs.SurfaceAfterFlush Sys2Proof.Proofs.InitSequence
open Sys2Proof.Proofs.SingleCommands Sys2Proof.Proofs.CommandEnds

/-- A command that sends frames and answers has had them all answered Ok, or one answered Err. -/
theorem response_of_sent {i : Instr} {s t : State} {fs : List Frame} {r : Response} (sent : Sent i s t fs)
    (response : t.respOut = s.respOut ++ [r]) :
    r = ⟨.ok, flushData i⟩ ∨ r = ⟨failCode i, flushData i⟩ ∧ t.lc = lcAfterErr s.lc i ∧
      ∃ k f rest, fs[k]? = some f ∧ s.answersErrAt k rest := by
  cases sent with
  | allOk rest answers busIn phase lc out =>
    have same := out.respOut.symm.trans response
    exact .inl (by simpa using same.symm)
  | errAt k f rest frame answers busIn phase lc out =>
    have same := out.respOut.symm.trans response
    exact .inr ⟨by simpa using same.symm, lc, k, f, rest, frame, answers⟩
  | silentAt k job frame answers busIn phase out =>
    have same := out.respOut.symm.trans response
    simp at same

/-- BLANK does not touch the surface (R256). -/
theorem transmit_blank_fb (l : Lifecycle) (n : Nat) (fs : List Frame) (s : State) :
    (transmit (.blank l) n fs s).fb = s.fb := by
  rcases transmit_cases (.blank l) n fs s with ⟨_, _, h⟩ | ⟨_, _, _, _, h⟩ | ⟨_, _, _, h⟩ <;> rw [h] <;> rfl

/-- A failed INIT leaves the block Detached and, as it found it, without a surface (R242). -/
theorem init_failed_leaves_detached {s : State} {k : Nat} {f : Frame} {rest : List Answer} (detached : s.lc = .detached)
    (absent : s.fb = none) (frame : (initFrames s.params)[k]? = some f) (answers : s.answersErrAt k rest) :
    (transmitPowerOn (s.setLc .attaching)).lc = s.lc ∧ (transmitPowerOn (s.setLc .attaching)).fb = s.fb := by
  rw [transmitPowerOn_initFrame_err (s := s.setLc .attaching) absent frame answers]
  exact ⟨detached.symm, rfl⟩

/-- The run of a flushing command with every frame answered Ok has the same surface and the same data (R97, R212). -/
theorem flushes_allOk_same_surface {i : Instr} {s : State} {m : Memory} (hf : flushes i = true) (ho : operandsOk i = true)
    (attached : s.attached) (surface : s.fb = some m) :
    ∃ u, exec i { s with busIn := List.replicate 74 .ok } = .next u ∧ u.fb = some (surfaceEffect m i) ∧
      u.respOut = s.respOut ++ [⟨.ok, flushData i⟩] := by
  refine ⟨_, exec_flushes (s := { s with busIn := List.replicate 74 .ok }) hf ho attached surface,
    commitThenFlush_fb _ _ _, ?_⟩
  rw [commitThenFlush_allOk _ _ (rest := []) (List.append_nil _).symm]

/-- Settles O38: a command that answers at once changes only the response port; of the others only the end by an Err has an
error code, and `response_of_sent` names it. -/
theorem noCommandLeavesPartialState : Obligations.NoCommandLeavesPartialState := by
  intro i s t r idle resting run response
  rcases exec_next run with ⟨code, data, rfl, -, -, kind⟩ | ⟨m, hf, ho, attached, surface, rfl⟩ | ⟨rfl, detached, rfl⟩ |
    ⟨rfl, attached, rfl⟩ | ⟨mode, f, l, rfl, attached, supported, rfl⟩
  case inl =>
    obtain rfl : r = ⟨code, data⟩ := by simpa using response.symm
    refine ⟨fun _ => respond_of_idle idle code data, fun _ => ⟨rfl, rfl⟩, fun failed => ?_⟩
    obtain rfl : code = .transportError := failed
    simp [rejectCodes] at kind
  case inr.inl =>
    rcases response_of_sent (sent_commitThenFlush hf _ s) response with rfl | ⟨rfl, -⟩
    · simp [rejectCodes]
    · obtain ⟨u, allOk, fb, answer⟩ := flushes_allOk_same_surface hf ho attached surface
      rw [failCode_of_flushes hf]
      refine ⟨by simp [rejectCodes], by simp, fun _ => ⟨commitThenFlush_lc _ _ _, .inr ⟨u, allOk, ?_, answer⟩⟩⟩
      rw [fb, commitThenFlush_fb]
  case inr.inr.inl =>
    have absent : s.fb = none := by simpa [State.resting, State.attached, detached] using resting
    rcases response_of_sent (sent_init s) response with rfl | ⟨rfl, -, k, f, rest, frame, answers⟩
    · simp [rejectCodes]
    · exact ⟨by simp [rejectCodes, failCode], fun _ => init_failed_leaves_detached detached absent frame answers,
        by simp [failCode]⟩
  case inr.inr.inr.inl =>
    rcases response_of_sent (sent_shutdown s) response with rfl | ⟨rfl, -⟩ <;> simp [rejectCodes, failCode]
  case inr.inr.inr.inr =>
    rcases response_of_sent (sent_blank s supported) response with rfl | ⟨rfl, lc, -⟩
    · simp [rejectCodes]
    · exact ⟨by simp [rejectCodes, failCode], by simp [failCode],
        fun _ => ⟨lc, .inl ⟨⟨mode, rfl⟩, transmit_blank_fb l 0 [f] s⟩⟩⟩

end Sys2Proof.Proofs.NoPartialState
end

section
/-! Counting the pixels of a filled rectangle (R172). -/
namespace Sys2Proof.Proofs.PixelCount

open Sys2Proof Sys2Proof.Machine
open Sys2Proof.Proofs.SurfaceAfterFlush

/-- How much of an interval lies in a range. -/
theorem countP_interval (a b n : Nat) :
    (List.range n).countP (fun x => decide (a ≤ x ∧ x < b)) = min n b - a := by
  induction n with
  | zero => simp
  | succ n ih =>
    rw [List.range_succ, List.countP_append, ih]
    by_cases inside : a ≤ n ∧ n < b
    · rw [List.countP_singleton, if_pos (decide_eq_true inside)]
      omega
    · rw [List.countP_singleton, if_neg (by simpa using inside)]
      omega

/-- The same number for each member that is picked, and 0 for each other one. -/
theorem sum_map_ite (p : Nat → Prop) [DecidablePred p] (c : Nat) (l : List Nat) :
    (l.map fun y => if p y then c else 0).sum = l.countP (fun y => decide (p y)) * c := by
  induction l with
  | nil => simp
  | cons y l ih => by_cases picked : p y <;> simp [picked, ih, Nat.add_mul, Nat.add_comm]

/-- A surface on which exactly the pixels of a rectangle are on has as many pixels on as the rectangle's area. -/
theorem onPixels_of_rectangle {m : Memory} {x0 y0 w h : Nat} (right : x0 + w ≤ 128) (bottom : y0 + h ≤ 64)
    (on_iff : ∀ x y, x < 128 → pixRead m x y = decide ((x0 ≤ x ∧ x < x0 + w) ∧ (y0 ≤ y ∧ y < y0 + h))) :
    onPixels m = w * h := by
  have row : ∀ y, (List.range 128).countP (fun x => pixRead m x y) = if y0 ≤ y ∧ y < y0 + h then w else 0 := by
    intro y
    rw [List.countP_congr (q := fun x => decide ((x0 ≤ x ∧ x < x0 + w) ∧ (y0 ≤ y ∧ y < y0 + h)))
      fun x hx => by rw [on_iff x y (List.mem_range.1 hx)]]
    by_cases inside : y0 ≤ y ∧ y < y0 + h
    · simp only [inside, and_self, and_true, if_true, countP_interval]
      omega
    · simp [inside]
  calc onPixels m = ((List.range 64).map fun y => if y0 ≤ y ∧ y < y0 + h then w else 0).sum := by
        simp only [onPixels, row]
    _ = (min 64 (y0 + h) - y0) * w := by rw [sum_map_ite, countP_interval]
    _ = w * h := by rw [Nat.min_eq_right bottom, Nat.add_sub_cancel_left, Nat.mul_comm]

/-- A rectangle inside the surface is not clipped (R170). -/
theorem clipRect_of_inside {x y w h : Nat} (right : x + w ≤ 128) (bottom : y + h ≤ 64) :
    clipRect x y w h = ⟨x, y, w, h⟩ := by
  simp only [clipRect, Rect.mk.injEq, Config.width, Config.height]
  omega

/-- Settles O22: on a blank surface the pixels of the painted block are on and no others. -/
theorem fillRectOnABlankSurfaceTurnsOnExactlyItsArea : Obligations.FillRectOnABlankSurfaceTurnsOnExactlyItsArea := by
  intro s t x y w h m' ready right bottom run surface
  obtain ⟨t', run', surface', -⟩ := exec_flushes_fb_lc (i := .fillRect x y w h true) rfl rfl ready
  obtain rfl : t = t' := Host.Outcome.next.inj (run.symm.trans run')
  obtain rfl : m' = surfaceEffect Memory.zeroed (.fillRect x y w h true) :=
    Option.some.inj (surface.symm.trans surface')
  refine onPixels_of_rectangle right bottom fun x' y' hx' => ?_
  rw [surfaceEffect, clipRect_of_inside right bottom]
  have painted := pixRead_paintBlock (f := fun _ _ => true) Memory.wf_zeroed right bottom hx' y'
  simpa [fillRect, pixRead, Memory.read_zeroed] using painted

end Sys2Proof.Proofs.PixelCount
end

section
/-! The surface effects that leave a surface as it is when they have been done to it already (R71). -/
namespace Sys2Proof.Proofs.RepeatedWrites

open Sys2Proof Sys2Proof.Machine
open Sys2Proof.Proofs.SurfaceAfterFlush Sys2Proof.Proofs.ByteRanges Sys2Proof.Proofs.RasterOps
open Sys2Proof.Proofs.SurfacePrimitives Sys2Proof.Proofs.OperandChecks

/-! ## Effects that change nothing -/

/-- Surfaces that show the same pixels are the same. -/
theorem eq_of_pixRead {m m' : Memory} (wf : Memory.wf m = true) (wf' : Memory.wf m' = true)
    (same : ∀ x y, x < Config.width → pixRead m' x y = pixRead m x y) : m' = m :=
  Memory.ext wf' wf fun a => Memory.read_eq_of_pixRead wf wf' a fun x y hx _ _ => same x y hx

/-- Writing the value that a pixel has. -/
theorem pixWrite_shown {m : Memory} (wf : Memory.wf m = true) {x y : Nat} (hx : x < Config.width) (hy : y < Config.height)
    {b : Bool} (shown : pixRead m x y = b) : pixWrite m x y b = m := by
  refine eq_of_pixRead wf (Memory.wf_pixWrite wf hx hy b) fun x' y' hx' => ?_
  rw [pixRead_pixWrite wf hx hx']
  split
  · next pixel => rw [pixel.1, pixel.2, shown]
  · rfl

/-- Painting a block with what it shows. -/
theorem paintBlock_shown {f : Nat → Nat → Bool} {m : Memory} (wf : Memory.wf m = true) {x0 y0 w n : Nat}
    (hx : x0 + w ≤ Config.width) (hy : y0 + n ≤ Config.height)
    (shown : ∀ i j, i < w → j < n → f i j = pixRead m (x0 + i) (y0 + j)) : paintBlock f x0 y0 w n m = m := by
  refine eq_of_pixRead wf (Memory.wf_paintBlock wf hx hy) fun x y hx' => ?_
  rw [pixRead_paintBlock wf hx hy hx']
  split
  · next block =>
    obtain ⟨⟨left, right⟩, top, bottom⟩ := block
    rw [shown _ _ (by omega) (by omega), Nat.add_sub_cancel' left, Nat.add_sub_cancel' top]
  · rfl

/-- Writing the bytes that a range holds. -/
theorem memWrite_shown {m : Memory} {off : Nat} {bs : List Byte} (wf : Memory.wf m = true)
    (inside : off + bs.length ≤ Config.bufLen)
    (shown : ∀ j (hj : j < bs.length), bs[j] = Memory.read m (off + j)) :
    memWrite m off bs = m := by
  refine Memory.ext (Memory.wf_memWrite wf inside) wf fun a => ?_
  by_cases range : off ≤ a ∧ a < off + bs.length
  · obtain ⟨j, rfl⟩ := Nat.exists_eq_add_of_le range.1
    have hj : j < bs.length := by omega
    rw [read_memWrite_in_range wf inside hj, shown j hj]
  · exact read_memWrite_out_of_range wf inside range

/-! ## Effects done twice -/

/-- SET_PIXEL, FILL_RECT, RAW_WRITE, and COPY_AREA of two blocks that are the same or do not overlap (R71). -/
def Repeatable (i : Instr) : Prop :=
  (∃ x y b, i = .setPixel x y b) ∨ (∃ x y w h c, i = .fillRect x y w h c) ∨ (∃ off pl, i = .rawWrite off pl) ∨
    ∃ sx sy dx dy w h, i = .copyArea sx sy dx dy w h ∧ (sx = dx ∧ sy = dy ∨
      sx.toNat + w.toNat ≤ dx.toNat ∨ dx.toNat + w.toNat ≤ sx.toNat ∨
      sy.toNat + h.toNat ≤ dy.toNat ∨ dy.toNat + h.toNat ≤ sy.toNat)

/-- The source block of such a COPY_AREA shows after it what it showed before, or is the destination. -/
theorem copyArea_copyArea {m : Memory} (wf : Memory.wf m = true) {sx sy dx dy w h : Nat} (hsx : sx + w ≤ Config.width)
    (hdx : dx + w ≤ Config.width) (hdy : dy + h ≤ Config.height)
    (apart : sx = dx ∧ sy = dy ∨ sx + w ≤ dx ∨ dx + w ≤ sx ∨ sy + h ≤ dy ∨ dy + h ≤ sy) :
    copyArea (copyArea m sx sy dx dy w h) sx sy dx dy w h = copyArea m sx sy dx dy w h := by
  refine paintBlock_shown (Memory.wf_paintBlock wf hdx hdy) hdx hdy fun i j hi hj => ?_
  rcases apart with ⟨rfl, rfl⟩ | apart
  · rfl
  · have outside : ¬((dx ≤ sx + i ∧ sx + i < dx + w) ∧ (dy ≤ sy + j ∧ sy + j < dy + h)) := by omega
    rw [copyArea, pixRead_paintBlock_in_block wf hdx hdy hi hj, snapshot, snapshot,
      pixRead_paintBlock wf hdx hdy (by omega), if_neg outside]

theorem surfaceEffect_surfaceEffect {i : Instr} (repeatable : Repeatable i) {m : Memory} (wf : Memory.wf m = true)
    (ok : operandsOk i = true) : surfaceEffect (surfaceEffect m i) i = surfaceEffect m i := by
  have wf' := wf_surfaceEffect wf ok
  rcases repeatable with ⟨x, y, b, rfl⟩ | ⟨x, y, w, h, c, rfl⟩ | ⟨off, pl, rfl⟩ | ⟨sx, sy, dx, dy, w, h, rfl, apart⟩
  case inl =>
    simp only [operandsOk, Bool.and_eq_true, decide_eq_true_eq] at ok
    obtain ⟨hx, hy⟩ := ok
    refine pixWrite_shown wf' hx hy ?_
    rw [surfaceEffect, pixRead_pixWrite wf hx hx, if_pos ⟨rfl, rfl⟩]
  case inr.inl =>
    obtain ⟨right, bottom⟩ := clipRect_inside x.toNat y.toNat w.toNat h.toNat
    exact paintBlock_shown wf' right bottom fun i j hi hj =>
      (pixRead_paintBlock_in_block (f := fun _ _ => c) wf right bottom hi hj).symm
  case inr.inr.inl =>
    have inside : off.toNat + (pl.take (clampLen off.toNat pl.length)).length ≤ Config.bufLen := by
      rw [length_take_clampLen]
      exact clampLen_inside (of_decide_eq_true ok)
    exact memWrite_shown wf' inside fun j hj => (read_memWrite_in_range wf inside hj).symm
  case inr.inr.inr =>
    simp only [operandsOk, Bool.and_eq_true, decide_eq_true_eq] at ok
    obtain ⟨⟨⟨hsx, -⟩, hdx⟩, hdy⟩ := ok
    exact copyArea_copyArea wf hsx hdx hdy (by simpa [← BitVec.toNat_inj] using apart)

theorem flushes_of_repeatable {i : Instr} (repeatable : Repeatable i) : flushes i = true := by
  rcases repeatable with ⟨_, _, _, rfl⟩ | ⟨_, _, _, _, _, rfl⟩ | ⟨_, _, rfl⟩ | ⟨_, _, _, _, _, _, rfl, -⟩ <;> rfl

/-- The surface after a flushing command: its effect, or the surface as it was when its operands are out of range. -/
theorem exec_flushes_surface {i : Instr} {s t : State} {m : Memory} (hf : flushes i = true) (attached : s.attached)
    (surface : s.fb = some m) (run : exec i s = .next t) :
    t.fb = some (if operandsOk i = true then surfaceEffect m i else m) := by
  by_cases ok : operandsOk i = true
  · rw [exec_flushes hf ok attached surface] at run
    rw [if_pos ok, ← Host.Outcome.next.inj run, commitThenFlush_fb]
  · rw [exec_operands_out_of_range attached surface (Bool.eq_false_iff.2 ok)] at run
    rw [if_neg ok, ← Host.Outcome.next.inj run, raise_fb, surface]

/-- Settles O42: operands out of range leave the surface each time, and an effect done twice is done once. -/
theorem writesRepeatedLeaveTheSurfaceAsItIs : Obligations.WritesRepeatedLeaveTheSurfaceAsItIs := by
  intro i s t u v m m' repeatable ready run surface attached' surface' run'
  obtain ⟨-, attached, before, wf⟩ := ready
  have hf := flushes_of_repeatable repeatable
  rw [exec_flushes_surface hf attached before run] at surface
  rw [exec_flushes_surface hf attached' surface' run', ← Option.some.inj surface]
  by_cases ok : operandsOk i = true
  · simp only [if_pos ok, surfaceEffect_surfaceEffect repeatable wf ok]
  · simp only [if_neg ok]

end Sys2Proof.Proofs.RepeatedWrites
end

section
/-! Earlier output on the ports changes nothing that the block does: every operation commutes with it (R41). -/
namespace Sys2Proof.Proofs.EarlierOutput

open Sys2Proof Sys2Proof.Machine
open Sys2Proof.Proofs.Stream Sys2Proof.Proofs.Reset Sys2Proof.Proofs.Steps Sys2Proof.Proofs.SingleCommands
open Sys2Proof.Proofs.FrameRuns

/-- The operation does the same, and puts out the same, after any earlier output. -/
def Commutes (f : State → State) : Prop :=
  ∀ s frames resps diags, f (s.afterOutputs frames resps diags) = (f s).afterOutputs frames resps diags

/-- The same of an operation that may stop. -/
def OutcomeCommutes (f : State → Host.Outcome State Fault Refusal) : Prop :=
  ∀ s frames resps diags, f (s.afterOutputs frames resps diags) = outcomeAfterOutputs frames resps diags (f s)

theorem Commutes.comp {g f : State → State} (hg : Commutes g) (hf : Commutes f) : Commutes fun s => g (f s) :=
  fun s frames resps diags => (congrArg g (hf s frames resps diags)).trans (hg (f s) frames resps diags)

theorem Commutes.ite (c : Prop) [Decidable c] {f g : State → State} (hf : Commutes f) (hg : Commutes g) :
    Commutes fun s => if c then f s else g s := by
  by_cases h : c
  · simpa only [if_pos h] using hf
  · simpa only [if_neg h] using hg

theorem Commutes.next {f : State → State} (hf : Commutes f) : OutcomeCommutes fun s => .next (f s) :=
  fun s frames resps diags => congrArg Host.Outcome.next (hf s frames resps diags)

/-! ## The shared operations -/

theorem commutes_id : Commutes fun s => s := fun _ _ _ _ => rfl

theorem commutes_setLc (l : Lifecycle) : Commutes fun s => s.setLc l := fun _ _ _ _ => rfl

theorem commutes_setFb (fb : Option Memory) : Commutes fun s => s.setFb fb := fun _ _ _ _ => rfl

theorem commutes_emit (sent : List Frame) (rest : List Answer) : Commutes fun s => s.emit sent rest := by
  intro s frames resps diags
  simp [State.emit, State.afterOutputs]

theorem commutes_diag (e : Diag) : Commutes fun s => s.diag e := by
  intro s frames resps diags
  simp [State.diag, State.afterOutputs]

theorem commutes_respond (code : ResultCode) (data : RespData) : Commutes (respond code data) := by
  intro s frames resps diags
  simp [respond, State.afterOutputs]

theorem commutes_raise (code : ResultCode) : Commutes (raise code) := commutes_respond code .none

theorem commutes_release : Commutes release :=
  (commutes_respond _ _).comp ((commutes_setLc _).comp (commutes_setFb _))

theorem commutes_endOk (e : Ending) : Commutes (endOk e) := by
  cases e with
  | flush data => exact commutes_respond _ _
  | init => exact (commutes_respond _ _).comp (commutes_setLc _)
  | shutdown => exact commutes_release
  | blank target => exact (commutes_respond _ _).comp (commutes_setLc _)

theorem commutes_endErr (e : Ending) : Commutes (endErr e) := by
  cases e with
  | flush data => exact commutes_respond _ _
  | init => exact (commutes_respond _ _).comp ((commutes_setLc _).comp (commutes_setFb _))
  | shutdown => exact commutes_release
  | blank target => exact commutes_respond _ _

/-! ## Sending frames -/

theorem commutes_conclude_ending (e : Ending) (r : SendResult) : Commutes (conclude (.ending e) r) := by
  cases r with
  | allOk n => exact commutes_endOk e
  | failed i f => exact (commutes_endErr e).comp (commutes_diag _)
  | silent f queue n => exact fun _ _ _ _ => rfl

theorem commutes_sendThen_ending (e : Ending) (n : Nat) (fs : List Frame) (as : List Answer) :
    Commutes (sendThen (.ending e) n fs as) :=
  (commutes_conclude_ending _ _).comp (commutes_emit _ _)

/-- INIT's flush, too, takes from the state only what earlier output leaves as it is. -/
theorem commutes_conclude (stage : Stage) (r : SendResult) : Commutes (conclude stage r) := by
  cases stage with
  | ending e => exact commutes_conclude_ending e r
  | powerOn =>
    cases r with
    | allOk n =>
      exact fun s => commutes_sendThen_ending .init n (flushFrames s.params Memory.zeroed) s.busIn
        (s.setFb (some Memory.zeroed))
    | failed i f => exact (commutes_respond _ _).comp ((commutes_setLc _).comp (commutes_diag _))
    | silent f queue n => exact fun _ _ _ _ => rfl

theorem commutes_sendThen (stage : Stage) (n : Nat) (fs : List Frame) (as : List Answer) :
    Commutes (sendThen stage n fs as) :=
  (commutes_conclude _ _).comp (commutes_emit _ _)

theorem commutes_transmit (e : Ending) (n : Nat) (fs : List Frame) : Commutes (transmit e n fs) :=
  fun s => commutes_sendThen (.ending e) n fs s.busIn s

theorem commutes_transmitPowerOn : Commutes transmitPowerOn :=
  fun s => commutes_sendThen .powerOn 0 (powerOnFrames s.params) s.busIn s

theorem commutes_flushThenRespond (data : RespData) (m : Memory) : Commutes (flushThenRespond data m) :=
  fun s => commutes_transmit (.flush data) 0 (flushFrames s.params m) s

theorem commutes_commitThenFlush (data : RespData) (m : Memory) : Commutes (commitThenFlush data m) :=
  (commutes_flushThenRespond data m).comp (commutes_setFb _)

theorem commutes_resume (job : Job) : Commutes (resume job) := by
  intro s frames resps diags
  match answers : s.busIn with
  | [] => rw [resume_noAnswer job answers, resume_noAnswer (s := s.afterOutputs frames resps diags) job answers]
  | .ok :: as =>
    rw [resume_ok job answers, resume_ok (s := s.afterOutputs frames resps diags) job answers, commutes_sendThen]
  | .err :: as =>
    rw [resume_err job answers, resume_err (s := s.afterOutputs frames resps diags) job answers]
    exact ((commutes_conclude _ _).comp (commutes_emit _ _)) s frames resps diags

/-! ## Commands -/

theorem commutes_whenAttached {k : State → Host.Outcome State Fault Refusal} (hk : OutcomeCommutes k) :
    OutcomeCommutes fun s => whenAttached s (k s) := by
  intro s frames resps diags
  dsimp only
  cases lc : s.lc with
  | detached =>
    rw [whenAttached_detached lc, whenAttached_detached (s := s.afterOutputs frames resps diags) lc]
    exact (commutes_raise _).next s frames resps diags
  | active =>
    rw [whenAttached_attached (.inl lc), whenAttached_attached (s := s.afterOutputs frames resps diags) (.inl lc), hk]
  | blanked =>
    rw [whenAttached_attached (.inr lc), whenAttached_attached (s := s.afterOutputs frames resps diags) (.inr lc), hk]
  | attaching =>
    rw [whenAttached_in_progress (.inl lc), whenAttached_in_progress (s := s.afterOutputs frames resps diags) (.inl lc)]
    rfl
  | detaching =>
    rw [whenAttached_in_progress (.inr lc), whenAttached_in_progress (s := s.afterOutputs frames resps diags) (.inr lc)]
    rfl

theorem commutes_withSurface {k : Memory → State → State} (hk : ∀ m, Commutes (k m)) :
    OutcomeCommutes fun s => withSurface s fun m => k m s := by
  refine commutes_whenAttached fun s frames resps diags => ?_
  have fb : (s.afterOutputs frames resps diags).fb = s.fb := rfl
  rw [fb]
  cases s.fb with
  | none => rfl
  | some m => exact (hk m).next s frames resps diags

theorem commutes_execInit : OutcomeCommutes execInit := by
  intro s frames resps diags
  by_cases detached : s.lc = .detached
  · have after : (s.afterOutputs frames resps diags).lc = .detached := detached
    rw [execInit, execInit, if_pos after, if_pos detached]
    exact (commutes_transmitPowerOn.comp (commutes_setLc _)).next s frames resps diags
  · have after : ¬(s.afterOutputs frames resps diags).lc = .detached := detached
    rw [execInit, execInit, if_neg after, if_neg detached]
    exact (commutes_raise _).next s frames resps diags

theorem commutes_execShutdown : OutcomeCommutes execShutdown :=
  commutes_whenAttached fun s =>
    ((commutes_transmit .shutdown 0 [s.params.displayOff]).comp (commutes_setLc .detaching)).next s

theorem commutes_execBlank (mode : Byte) : OutcomeCommutes (execBlank mode) := by
  refine commutes_whenAttached ?_
  cases blankMode (zextByte mode) with
  | unblank => exact fun s => (commutes_transmit (.blank .active) 0 [s.params.displayOn]).next s
  | normal => exact fun s => (commutes_transmit (.blank .blanked) 0 [s.params.displayOff]).next s
  | unsupported => exact (commutes_raise _).next

theorem commutes_exec (i : Instr) : OutcomeCommutes (exec i) := by
  cases i
  case nop => exact (commutes_respond _ _).next
  case fillRect =>
    exact commutes_withSurface fun m => (commutes_commitThenFlush _ _).comp ((commutes_diag _).ite _ commutes_id)
  case copyArea | setPixel =>
    exact commutes_withSurface fun m => (commutes_commitThenFlush _ _).ite _ (commutes_raise _)
  case getPixel | rawRead => exact commutes_withSurface fun m => (commutes_respond _ _).ite _ (commutes_raise _)
  case rawWrite =>
    exact commutes_withSurface fun m =>
      ((commutes_commitThenFlush _ _).comp ((commutes_diag _).ite _ commutes_id)).ite _ (commutes_raise _)
  case pageRead => exact commutes_withSurface fun m => (commutes_respond _ _).ite _ (commutes_respond _ _)
  case flush => exact commutes_withSurface fun m => commutes_flushThenRespond _ _
  case init => exact commutes_execInit
  case shutdown => exact commutes_execShutdown
  case blank mode => exact commutes_execBlank mode

/-! ## The step -/

/-- What a look at the ports comes to, with earlier output put before it. -/
def fetchAfterOutputs (frames : List Frame) (resps : List Response) (diags : List Diag) : Fetch → Fetch
  | .wait t => .wait (t.afterOutputs frames resps diags)
  | .run d t => .run d (t.afterOutputs frames resps diags)

section
variable (s : State) (frames : List Frame) (resps : List Response) (diags : List Diag)

theorem takePayload_afterOutputs (cw : CmdWord) (got : List Byte) (due : Nat) :
    takePayload cw got due (s.afterOutputs frames resps diags) =
      fetchAfterOutputs frames resps diags (takePayload cw got due s) := by
  by_cases few : s.cmdIn.length < due
  · rw [takePayload_of_due cw few, takePayload_of_due (s := s.afterOutputs frames resps diags) cw few]
    rfl
  · have enough := Nat.le_of_not_lt few
    rw [takePayload_of_enough cw enough, takePayload_of_enough (s := s.afterOutputs frames resps diags) cw enough]
    rfl

/-- The input ports and the phase are what a step looks at, and earlier output leaves them as they are. -/
theorem fetch_afterOutputs :
    fetch (s.afterOutputs frames resps diags) = fetchAfterOutputs frames resps diags (fetch s) := by
  cases phase : s.phase with
  | bus job =>
    rw [fetch_of_bus phase, fetch_of_bus (s := s.afterOutputs frames resps diags) phase, commutes_resume]
    rfl
  | payload cw got due =>
    rw [fetch_of_payload phase, fetch_of_payload (s := s.afterOutputs frames resps diags) phase,
      takePayload_afterOutputs]
  | idle =>
    cases word : takeWord s.cmdIn with
    | none =>
      rw [fetch_of_no_word phase word, fetch_of_no_word (s := s.afterOutputs frames resps diags) phase word]
      rfl
    | some taken =>
      obtain ⟨cw, rest⟩ := taken
      have port := takeWord_eq_some_iff.1 word
      rw [fetch_of_idle_word phase port, fetch_of_idle_word (s := s.afterOutputs frames resps diags) phase port]
      exact takePayload_afterOutputs (s.setCmdIn rest) frames resps diags cw [] (payloadLen cw)

end

/-- Settles O45: a step fetches the same, `fetch_afterOutputs`, and does the same with it, `commutes_exec`. -/
theorem earlierOutputNeverMatters : Obligations.EarlierOutputNeverMatters := by
  intro s frames resps diags
  have fetched := fetch_afterOutputs s frames resps diags
  cases reset : s.resetIn with
  | true =>
    rw [step_of_resetIn reset, step_of_resetIn (s := s.afterOutputs frames resps diags) reset]
    rfl
  | false =>
    have released : (s.afterOutputs frames resps diags).resetIn = false := reset
    cases found : fetch s with
    | wait t =>
      rw [found] at fetched
      rw [step_of_wait reset found, step_of_wait released fetched]
      rfl
    | run d t =>
      rw [found] at fetched
      cases d with
      | illegal r =>
        rw [step_of_illegal reset found, step_of_illegal released fetched]
        exact (commutes_raise _).next t frames resps diags
      | instr i => rw [step_of_instr reset found, step_of_instr released fetched, commutes_exec]

end Sys2Proof.Proofs.EarlierOutput
end

section
/-! The invariant: it holds at reset, every step keeps it, and no state that has it stops (R30, R33, R46, R200, R285). -/
namespace Sys2Proof.Proofs.Invariant

open Sys2Proof Sys2Proof.Machine
open Sys2Proof.Proofs.InitSequence Sys2Proof.Proofs.DetachedCommands Sys2Proof.Proofs.OperandChecks
open Sys2Proof.Proofs.Reset Sys2Proof.Proofs.Steps Sys2Proof.Proofs.StepCases Sys2Proof.Proofs.FrameRuns

/-! ## Frames of the parameters -/

theorem frameOk_of_cmdFrameOk {ps : Params} {f : Frame} (h : ps.cmdFrameOk f = true) : frameOk f = true :=
  (Bool.and_eq_true_iff.1 h).1

section
variable {ps : Params} (wf : ps.wf = true)
include wf

/-- R13, R200: every frame among the parameters has 1 to 17 bytes. -/
theorem frameOk_params :
    (frameOk ps.colStart = true ∧ frameOk ps.colEnd = true) ∧ (∀ f ∈ ps.chargePump, frameOk f = true) ∧
      frameOk ps.displayOn = true ∧ frameOk ps.displayOff = true := by
  simp only [Params.wf, Bool.and_eq_true, List.all_eq_true] at wf
  obtain ⟨⟨⟨⟨⟨-, start⟩, stop⟩, pump⟩, on⟩, off⟩ := wf
  exact ⟨⟨frameOk_of_cmdFrameOk start, frameOk_of_cmdFrameOk stop⟩, fun f hf => frameOk_of_cmdFrameOk (pump f hf),
    frameOk_of_cmdFrameOk on, frameOk_of_cmdFrameOk off⟩

theorem frameOk_powerOnFrames : ∀ f ∈ powerOnFrames ps, frameOk f = true := by
  obtain ⟨-, pump, on, -⟩ := frameOk_params wf
  intro f hf
  rcases List.mem_append.1 hf with h | h
  · exact pump f h
  · rwa [List.mem_singleton.1 h]

/-- R202, R203: a page-select frame has 2 bytes, a data frame 17. -/
theorem frameOk_flushFrames (m : Memory) : ∀ f ∈ flushFrames ps m, frameOk f = true := by
  obtain ⟨⟨start, stop⟩, -⟩ := frameOk_params wf
  intro f hf
  simp only [flushFrames, pageBlock, List.mem_append, List.mem_cons, List.not_mem_nil, or_false, List.mem_flatMap,
    List.mem_map] at hf
  rcases hf with (rfl | rfl) | ⟨p, -, rfl | ⟨k, -, rfl⟩⟩
  · exact start
  · exact stop
  · rfl
  · simp [frameOk, dataFrame]

end

/-! ## The invariant without the phase -/

/-- The invariant but for the phase. -/
structure Sound (s : State) : Prop where
  surface : ∀ m, s.fb = some m → Memory.wf m = true
  paramsOk : s.params.wf = true
  frames : ∀ f ∈ s.busOut, frameOk f = true
  responses : ∀ r ∈ s.respOut, responseOk r = true

theorem Sound.of_inv {s : State} (inv : s.Inv) : Sound s := ⟨inv.surface, inv.paramsOk, inv.frames, inv.responses⟩

namespace Sound
variable {s : State} (sound : Sound s)
include sound

theorem inv (phaseOk : s.phaseOk) : s.Inv :=
  ⟨sound.surface, sound.paramsOk, phaseOk, sound.frames, sound.responses⟩

theorem setLc (l : Lifecycle) : Sound (s.setLc l) := { sound with }

theorem setFb {fb : Option Memory} (h : ∀ m, fb = some m → Memory.wf m = true) : Sound (s.setFb fb) :=
  { sound with surface := h }

theorem clearFb : Sound (s.setFb none) := sound.setFb (by simp)

theorem events (events : List Diag) : Sound { s with diagOut := s.diagOut ++ events } := { sound with }

theorem taken (p : Phase) (bytes : List Byte) : Sound { s with phase := p, cmdIn := bytes } := { sound with }

theorem emit {frames : List Frame} (h : ∀ f ∈ frames, frameOk f = true) (rest : List Answer) :
    Sound (s.emit frames rest) :=
  { sound with frames := fun f hf => (List.mem_append.1 hf).elim (sound.frames f) (h f) }

theorem respond {code : ResultCode} {data : RespData} (h : responseOk ⟨code, data⟩ = true) :
    Sound (respond code data s) :=
  { sound with
    responses := fun r hr => (List.mem_append.1 hr).elim (sound.responses r) fun last => List.mem_singleton.1 last ▸ h }

end Sound

/-! ## The ends of a command -/

/-- Between two commands, after a response of R96. -/
theorem respond_inv {s : State} (sound : Sound s) (resting : s.resting) {code : ResultCode} {data : RespData}
    (h : responseOk ⟨code, data⟩ = true) : (respond code data s).Inv :=
  (sound.respond h).inv resting

theorem release_inv {s : State} (sound : Sound s) : (release s).Inv :=
  respond_inv (sound.clearFb.setLc .detached) (.inl ⟨rfl, rfl⟩) rfl

theorem endOk_inv {e : Ending} {s : State} (sound : Sound s) (stage : s.stageOk (.ending e)) : (endOk e s).Inv := by
  cases e with
  | flush data =>
    obtain ⟨attached, surface, shape⟩ := stage
    exact respond_inv sound (.inr ⟨attached, surface⟩) shape
  | init =>
    obtain ⟨-, surface⟩ := stage
    exact respond_inv (sound.setLc .active) (.inr ⟨.inl rfl, by simp [surface]⟩) rfl
  | shutdown => exact release_inv sound
  | blank target =>
    obtain ⟨-, surface, supported⟩ := stage
    exact respond_inv (sound.setLc target) (.inr ⟨supported, surface⟩) rfl

theorem endErr_inv {e : Ending} {s : State} (sound : Sound s) (stage : s.stageOk (.ending e)) : (endErr e s).Inv := by
  cases e with
  | flush data =>
    obtain ⟨attached, surface, shape⟩ := stage
    exact respond_inv sound (.inr ⟨attached, surface⟩) shape
  | init => exact respond_inv (sound.clearFb.setLc .detached) (.inl ⟨rfl, rfl⟩) rfl
  | shutdown => exact release_inv sound
  | blank target =>
    obtain ⟨attached, surface, -⟩ := stage
    exact respond_inv sound (.inr ⟨attached, surface⟩) rfl

/-- The stage looks at LC and FB only. -/
theorem stageOk_congr {s t : State} (lc : t.lc = s.lc) (fb : t.fb = s.fb) {stage : Stage} (h : s.stageOk stage) :
    t.stageOk stage := by
  simpa only [State.stageOk, State.attached, lc, fb] using h

/-- Waiting for the last frame presented. -/
theorem awaitAnswer_inv {stage : Stage} {f : Frame} {queue : List Frame} {n : Nat} {s : State} (sound : Sound s)
    (h : s.stageOk stage) (last : s.busOut.getLast? = some f) (begun : 1 ≤ n) (later : ∀ g ∈ queue, frameOk g = true) :
    (awaitAnswer stage f queue n s).Inv :=
  Sound.inv { sound with } ⟨stageOk_congr rfl rfl h, last, begun, later⟩

theorem conclude_failed_inv {stage : Stage} {s : State} (sound : Sound s) (h : s.stageOk stage) (i : Nat) (f : Frame) :
    (conclude stage (.failed i f) s).Inv := by
  cases stage with
  | ending e => exact endErr_inv (sound.events [.txFail i f]) (stageOk_congr rfl rfl h)
  | powerOn =>
    obtain ⟨-, absent⟩ := h
    exact respond_inv ((sound.events [.txFail i f]).setLc .detached) (.inl ⟨rfl, absent⟩) rfl

/-- A run of frames keeps the invariant if its stage does once the frames are answered. -/
theorem sendThen_inv_of {stage : Stage}
    (allOk : ∀ (n : Nat) (s : State), Sound s → s.stageOk stage → (conclude stage (.allOk n) s).Inv) {s : State}
    (sound : Sound s) (h : s.stageOk stage) (n : Nat) {fs : List Frame} (ok : ∀ f ∈ fs, frameOk f = true)
    (as : List Answer) : (sendThen stage n fs as s).Inv := by
  have presented : ∀ k f, f ∈ fs.take k → frameOk f = true := fun k f hf => ok f (List.mem_of_mem_take hf)
  rcases sendThen_cases stage n fs as s with ⟨rest, -, run⟩ | ⟨k, hk, rest, -, run⟩ | ⟨k, hk, -, run⟩ <;> rw [run]
  · exact allOk _ _ (sound.emit ok rest) (stageOk_congr rfl rfl h)
  · exact conclude_failed_inv (sound.emit (presented _) rest) (stageOk_congr rfl rfl h) _ _
  · refine awaitAnswer_inv (sound.emit (presented _) []) (stageOk_congr rfl rfl h) ?_ (Nat.succ_pos _)
      fun f hf => ok f (List.mem_of_mem_drop hf)
    simp [List.getLast?_append, List.getLast?_take, hk]

theorem sendThen_inv {stage : Stage} {s : State}
    (sound : Sound s) (h : s.stageOk stage) (n : Nat) {fs : List Frame} (ok : ∀ f ∈ fs, frameOk f = true)
    (as : List Answer) : (sendThen stage n fs as s).Inv := by
  have ending : ∀ (e : Ending) (n : Nat) (s : State), Sound s → s.stageOk (.ending e) →
      (conclude (.ending e) (.allOk n) s).Inv := fun _ _ _ sound h => endOk_inv sound h
  cases stage with
  | ending e => exact sendThen_inv_of (ending e) sound h n ok as
  | powerOn =>
    refine sendThen_inv_of (fun n s sound h => ?_) sound h n ok as
    have zeroed : Sound (s.setFb (some Memory.zeroed)) :=
      sound.setFb fun m hm => Option.some.inj hm ▸ Memory.wf_zeroed
    exact sendThen_inv_of (ending .init) zeroed ⟨h.1, rfl⟩ n (frameOk_flushFrames sound.paramsOk _) s.busIn

theorem resume_inv {s : State} {job : Job} (sound : Sound s) (phase : s.phase = .bus job) (h : s.jobOk job) :
    (resume job s).Inv := by
  have ⟨stage, _, _, later⟩ := h
  match answers : s.busIn with
  | [] =>
    rw [resume_noAnswer job answers]
    exact sound.inv (by rwa [State.phaseOk, phase])
  | .ok :: as =>
    rw [resume_ok job answers]
    exact sendThen_inv sound stage _ later as
  | .err :: as =>
    rw [resume_err job answers]
    exact conclude_failed_inv (sound.emit (by simp) as) (stageOk_congr rfl rfl stage) _ _

/-! ## Commands -/

theorem capacityExceeded_not_returned (i : Instr) : .capacityExceeded ∉ mayReturn i := by
  cases i <;> simp [mayReturn]

theorem dataOk_flushData (i : Instr) : dataOk (flushData i) = true := by
  cases i
  case rawWrite off payload =>
    simp only [flushData, dataOk, clampLen, Config.bufLen, decide_eq_true_eq]
    omega
  all_goals rfl

theorem surface_of_attached {s : State} (resting : s.resting) (attached : s.attached) : s.fb.isSome := by
  rcases resting with ⟨detached, -⟩ | ⟨-, present⟩
  · simp [State.attached, detached] at attached
  · exact present

/-- A command keeps the invariant between two commands (R46, R75, R142). -/
theorem exec_inv {i : Instr} {s t : State} (sound : Sound s) (resting : s.resting) (run : exec i s = .next t) :
    t.Inv := by
  obtain ⟨-, -, displayOn, displayOff⟩ := frameOk_params sound.paramsOk
  rcases exec_next run with ⟨code, data, rfl, allowed, shape, -⟩ | ⟨m, hf, ho, attached, surface, rfl⟩ |
    ⟨rfl, detached, rfl⟩ | ⟨rfl, attached, rfl⟩ | ⟨mode, f, l, rfl, attached, supported, rfl⟩
  case inl =>
    have code_ok : code ≠ .capacityExceeded := fun h => capacityExceeded_not_returned i (h ▸ allowed)
    exact respond_inv sound resting (by simp [responseOk, code_ok, shape])
  case inr.inl =>
    have effect : Memory.wf (surfaceEffect m i) = true := wf_surfaceEffect (sound.surface m surface) ho
    have committed : Sound (State.setFb { s with diagOut := s.diagOut ++ eventsBefore i } (some (surfaceEffect m i))) :=
      (sound.events _).setFb fun m' hm' => Option.some.inj hm' ▸ effect
    exact sendThen_inv (stage := .ending (.flush (flushData i))) committed ⟨attached, rfl, dataOk_flushData i⟩ 0
      (frameOk_flushFrames sound.paramsOk _) s.busIn
  case inr.inr.inl =>
    have absent : s.fb = none := by simpa [State.resting, State.attached, detached] using resting
    exact sendThen_inv (stage := .powerOn) (sound.setLc .attaching) ⟨rfl, absent⟩ 0
      (frameOk_powerOnFrames sound.paramsOk) s.busIn
  case inr.inr.inr.inl =>
    have present := surface_of_attached resting attached
    exact sendThen_inv (stage := .ending .shutdown) (sound.setLc .detaching) ⟨rfl, present⟩ 0
      (by simpa using displayOff) s.busIn
  case inr.inr.inr.inr =>
    have frame : frameOk f = true ∧ (l = .active ∨ l = .blanked) := by
      rcases supported with ⟨-, rfl, rfl⟩ | ⟨-, rfl, rfl⟩
      · exact ⟨displayOff, .inr rfl⟩
      · exact ⟨displayOn, .inl rfl⟩
    exact sendThen_inv (stage := .ending (.blank l)) sound ⟨attached, surface_of_attached resting attached, frame.2⟩ 0
      (by simpa using frame.1) s.busIn

/-! ## Steps -/

theorem Sound.afterReset {s : State} (sound : Sound s) : Sound (afterReset s) :=
  { sound with surface := fun _ h => by simp at h }

/-- Between two commands or in a payload phase, LC and FB are as between two commands (R30, R33). -/
theorem resting_of_phaseOk {s : State} (h : s.phaseOk) (free : ∀ job, s.phase ≠ .bus job) : s.resting := by
  unfold State.phaseOk at h
  split at h
  · exact h
  · exact h.1
  · next job phase => exact absurd phase (free job)

theorem counted_of_phaseOk {s : State} (h : s.phaseOk) : Counted s.phase := by
  unfold State.phaseOk at h
  cases phase : s.phase with
  | payload cw got due =>
    rw [phase] at h
    exact h.2.2
  | idle => trivial
  | bus job => trivial

/-- Settles O49: a step ends with a reset, a wait or a command, and each keeps the invariant. -/
theorem everyStepKeepsTheInvariant : Obligations.EveryStepKeepsTheInvariant := by
  intro s t inv run
  have sound := Sound.of_inv inv
  rcases step_next run with rfl | wait | ⟨d, u, whole, outcome⟩
  · exact sound.afterReset.inv (.inl ⟨rfl, rfl⟩)
  · cases wait with
    | resumed job phase => exact resume_inv sound phase (by simpa [State.phaseOk, phase] using inv.phaseOk)
    | nothing => exact inv
    | pending cw got due free some_due counted =>
      have resting := resting_of_phaseOk inv.phaseOk free
      exact (sound.taken _ _).inv ⟨resting, some_due, counted (counted_of_phaseOk inv.phaseOk)⟩
  · cases whole with
    | whole d rest free =>
      have resting := resting_of_phaseOk inv.phaseOk free
      have taken := sound.taken .idle rest
      obtain ⟨r, -, rfl⟩ | ⟨i, -, executed⟩ := outcome
      · exact respond_inv taken resting rfl
      · exact exec_inv taken resting executed

/-- Settles O48: the parameters are normalised, which is what R13 asks of them, and the ports are empty. -/
theorem resetStateMeetsTheInvariant : Obligations.ResetStateMeetsTheInvariant :=
  Sound.inv ⟨by simp [State.reset], Params.wf_normalise _, by simp [State.reset], by simp [State.reset]⟩
    (.inl ⟨rfl, rfl⟩)

/-- Settles O14: the fields of `State.reset`. -/
theorem resetStateIsDetachedWithNothingPending : Obligations.ResetStateIsDetachedWithNothingPending :=
  ⟨rfl, rfl, rfl, rfl, rfl⟩

/-! ## No stop -/

/-- Between two commands, LC and FB as they then are, every command has a next state. -/
theorem exec_of_resting (i : Instr) {s : State} (resting : s.resting) : ∃ t, exec i s = .next t := by
  rcases resting with ⟨detached, -⟩ | ⟨attached, present⟩
  · by_cases accepted : acceptedDetached i = true
    · cases i
      case nop => exact ⟨_, rfl⟩
      case init => exact ⟨_, exec_init_detached detached⟩
      all_goals exact Bool.noConfusion accepted
    · exact ⟨_, exec_detached detached (Bool.eq_false_iff.2 accepted)⟩
  · obtain ⟨m, surface⟩ := Option.isSome_iff_exists.1 present
    by_cases ok : operandsOk i = true
    · obtain ⟨t, run, -⟩ := exec_operands_in_range attached surface ok
      exact ⟨t, run⟩
    · exact ⟨_, exec_operands_out_of_range attached surface (Bool.eq_false_iff.2 ok)⟩

/-- Settles O50: of the four things that a step can come to only a command could stop, and `exec_of_resting` says that
none does. -/
theorem noStepFromTheInvariantStops : Obligations.NoStepFromTheInvariantStops := by
  intro s inv
  cases reset : s.resetIn with
  | true => exact ⟨_, step_of_resetIn reset⟩
  | false =>
    have fetched := fetched_fetch s
    cases found : fetch s with
    | wait t => exact ⟨t, step_of_wait reset found⟩
    | run d u =>
      cases d with
      | illegal r => exact ⟨_, step_of_illegal reset found⟩
      | instr i =>
        rw [step_of_instr reset found]
        rw [found] at fetched
        cases fetched with
        | whole _ rest free =>
          have resting := resting_of_phaseOk inv.phaseOk free
          exact exec_of_resting i resting

end Sys2Proof.Proofs.Invariant
end
